-- ==== Sys2Proof/Word.lean ====
section
/-! DEFINITION. The word types of CORE: a byte, and the 32-bit word that is the tag word, a payload word, a
command word and an operand (00_scope.md R5: WORD_BITS = TAGW_BITS = IDX_TYPE_BITS = SIZE_BITS = 32). -/

namespace Sys2Proof

/-- A byte is 8 bits (20_memory.md R40). -/
abbrev Byte := BitVec 8

/-- A 32-bit word. -/
abbrev Word := BitVec 32

end Sys2Proof
end

