-- ==== Sys2Proof/Config.lean ====
section
/-! DEFINITION. The implementation parameters of CORE (00_scope.md R5) at the values of the concrete scheme,
the two parameters the spec leaves OPEN as opaque constants, the free bytes of an undriven data port, and the
values the model names for the registers that have none at reset. -/

namespace Sys2Proof.Config

/-- WORD_BITS, the configured word width (R5). -/
@[simp] abbrev wordBits : Nat := 32
/-- WORD_BYTES = WORD_BITS / 8 (R5). -/
@[simp] abbrev wordBytes : Nat := 4
/-- SUBKEY_WIDTHS, the word widths key memory can be viewed as (R5). -/
abbrev subkeyWidths : List Nat := [8, 16, 32, 64]
/-- KEY_CAP_BYTES, the capacity of key memory (R5, D9). -/
@[simp] abbrev keyCapBytes : Nat := 53280
/-- TAGW_BITS, the width of the tag word (R5). -/
@[simp] abbrev tagwBits : Nat := 32
/-- TAG_BITS, the width of the tag field (R5). -/
@[simp] abbrev tagBits : Nat := 1
/-- INDEX_BITS = TAGW_BITS - TAG_BITS (R5). -/
@[simp] abbrev indexBits : Nat := 31
/-- IDX_TYPE_BITS, the width of the Index type (R5, D4). -/
@[simp] abbrev idxTypeBits : Nat := 32
/-- PAYLOAD_WORDS, the payload words of a frame (R5). -/
@[simp] abbrev payloadWords : Nat := 7
/-- BLOCK_BYTES = PAYLOAD_WORDS * WORD_BYTES (R5). -/
@[simp] abbrev blockBytes : Nat := 28
/-- L_BLOCK, the subkey length of every cipher operation (R5). -/
@[simp] abbrev lBlock : Nat := 7
/-- FRAME_BYTES = TAGW_BITS/8 + PAYLOAD_WORDS * WORD_BYTES (R5). -/
@[simp] abbrev frameBytes : Nat := 32

/-- The two values the spec allows for KEY_ALIGN (R5: "OPEN, one of 4 or 8"). -/
inductive KeyAlign where
  | four
  | eight
deriving DecidableEq, Repr, Inhabited

/-- The alignment in bytes that a value of KEY_ALIGN guarantees. -/
def KeyAlign.bytes : KeyAlign → Nat
  | .four => 4
  | .eight => 8

/-- KEY_ALIGN is left open by the spec (R5, D8, U3): nothing is known of it but that it is 4 or 8 bytes (log 7). -/
opaque keyAlignment : KeyAlign

/-- KEY_ALIGN in bytes (R5, 20_memory.md R44). -/
def keyAlign : Nat := keyAlignment.bytes

/-- HASH_CUSTOM, the substitute hash: total and pure, otherwise unconstrained (R5, 41_index_transform.md R91, D22;
log 8). -/
opaque hashCustom : Word → Word

/-- What byte `i` of the data port shows where the host's list of bytes is shorter than the operation samples.
30_encoding.md R70 says such a command cannot be expressed; the byte is a free value (log 6). -/
opaque undrivenByte : Nat → Byte

/-- The value of KEY_LEN at reset. 10_state.md R36 gives none and forbids zero by assumption. DESIGN CHOICE, unsafe
(log 1). -/
def resetKeyLen : Word := 0xA5A5A5A5#32

/-- The value of MASK at reset. 10_state.md R36 gives none and forbids zero by assumption. DESIGN CHOICE, unsafe
(log 2). -/
def resetMask : Word := 0xA5A5A5A5#32

/-- The static constraints (a) to (h) on the parameters (R6), checked when the block is built. -/
abbrev staticConstraints : Prop :=
  wordBits ∈ subkeyWidths ∧
  blockBytes % wordBytes = 0 ∧
  frameBytes = tagwBits / 8 + payloadWords * wordBytes ∧
  tagwBits = wordBits ∧
  (1 ≤ tagBits ∧ tagBits ≤ tagwBits - 1) ∧
  wordBytes ≤ keyAlign ∧
  keyCapBytes % wordBytes = 0 ∧
  idxTypeBits ≥ indexBits

end Sys2Proof.Config
end

