-- ==== Sys2Proof/Syntax.lean ====
section
/-! DEFINITION. The syntax of CORE: the command as the host presents it (30_encoding.md R63, R70) and the
seventeen operations with their operands (R66, R68), one constructor for each row of spec/opcode_table.json in the
table's order. -/

namespace Sys2Proof

/-- The word width a KS_SUBKEY selects (30_encoding.md R65). -/
inductive WordWidth where
  | w8
  | w16
  | w32
  | w64
deriving DecidableEq, Repr

/-- The width in bits, W = 8 * 2^wsel (30_encoding.md R65). -/
def WordWidth.bits : WordWidth → Nat
  | .w8 => 8
  | .w16 => 16
  | .w32 => 32
  | .w64 => 64

/-- One command: the words CTRL, ARG0 and ARG1 (30_encoding.md R63) and the bytes the host drives on the data port
for it, byte 0 first (R70). -/
structure Command where
  ctrl : Word
  arg0 : Word
  arg1 : Word
  data : List Byte
deriving DecidableEq, Repr

/-- The operations of CORE (30_encoding.md R68) with the operands each one uses (R66). A data operand of fixed length
is a vector of that length, and KS_LOAD takes its `len` from the blob (93_implementation_defined.md U22, R71). -/
inductive Instr where
  /-- KS_LOAD: construct the key store from a blob (40_keystore.md R80). -/
  | ksLoad (kdata : List Byte)
  /-- KS_SUBKEY: extract `len` words of width `w` at `wordOffset` (R82). -/
  | ksSubkey (w : WordWidth) (wordOffset len : Word)
  /-- IT_CONFIG: set the mask and choose the hash (41_index_transform.md R90). -/
  | itConfig (mask hashSel : Word)
  /-- IT_OFFSET: the word offset for an index and a subkey length (R93). -/
  | itOffset (index len : Word)
  /-- BC_APPLY: cipher a block the host supplies (42_block_cipher.md R101). -/
  | bcApply (index : Word) (wdata : Vector Byte 28)
  /-- FT_NEW: a fresh tag word (43_frame_tag.md R111). -/
  | ftNew (index : Word)
  /-- FT_GET_INDEX (R112). -/
  | ftGetIndex
  /-- FT_SET_INDEX (R113). -/
  | ftSetIndex (index : Word)
  /-- FT_GET_TAG (R114). -/
  | ftGetTag
  /-- FT_SET_TAG (R115). -/
  | ftSetTag (tag : Word)
  /-- FT_TAG_BITS (R116). -/
  | ftTagBits
  /-- FR_NEW: a zero frame (44_frame.md R125). -/
  | frNew
  /-- FR_AS_BYTES: the frame's byte view (R126). -/
  | frAsBytes
  /-- FR_LOAD_BYTES: write the whole frame from bytes (R127). -/
  | frLoadBytes (wdata : Vector Byte 32)
  /-- FR_CIPHER: cipher the frame's payload with the frame's own index (R130). -/
  | frCipher
  /-- FR_SET_PAYLOAD: write payload word `i` (R128). -/
  | frSetPayload (i value : Word)
  /-- FR_GET_PAYLOAD: read payload word `i` (R129). -/
  | frGetPayload (i : Word)
deriving DecidableEq, Repr

end Sys2Proof
end

