-- ==== Sys2Proof/WellFormed.lean ====
section
/-! DEFINITION. Which instructions a command word can carry. Every operand but one is typed to the exact width of its
field; the one check left is that a key blob's length fits ARG0 (30_encoding.md R66, R67). -/

namespace Sys2Proof

/-- An instruction is well formed when its operands fit the 96-bit command. The length of a KS_LOAD blob is carried in
the 32 bits of ARG0 (30_encoding.md R66); all other operands fit by their types. -/
def Instr.wellFormed : Instr → Bool
  | .ksLoad kdata => decide (kdata.length < 2 ^ 32)
  | .ksSubkey _ _ _ => true
  | .itConfig _ _ => true
  | .itOffset _ _ => true
  | .bcApply _ _ => true
  | .ftNew _ => true
  | .ftGetIndex => true
  | .ftSetIndex _ => true
  | .ftGetTag => true
  | .ftSetTag _ => true
  | .ftTagBits => true
  | .frNew => true
  | .frAsBytes => true
  | .frLoadBytes _ => true
  | .frCipher => true
  | .frSetPayload _ _ => true
  | .frGetPayload _ => true

end Sys2Proof
end

