-- ==== Sys2Proof/Decode.lean ====
section
/-! DEFINITION. The decoder, total on every command and rejecting by name, the encoder beside it, the opcode table as
data, and the reading of a table word (30_encoding.md R63 to R70, R73). -/

namespace Sys2Proof

/-- Why a command word selects no operation (30_encoding.md R69); all three are answered alike, IllegalCommand. -/
inductive DecodeError where
  /-- A reserved bit of CTRL[31:7] is set. -/
  | reservedBits
  /-- `wsel` is not 0 and `op` is not KS_SUBKEY. -/
  | widthOnOtherOperation
  /-- `op` is 0x00 or in 0x12 to 0x1F. -/
  | reservedOperation
deriving DecidableEq, Repr

/-- CTRL[4:0], the operation code (30_encoding.md R64). -/
def Command.op (c : Command) : BitVec 5 := c.ctrl.extractLsb' 0 5

/-- CTRL[6:5], the width select (R64). -/
def Command.wsel (c : Command) : BitVec 2 := c.ctrl.extractLsb' 5 2

/-- CTRL[31:7], the reserved bits (R64). -/
def Command.reserved (c : Command) : BitVec 25 := c.ctrl.extractLsb' 7 25

/-- The width `wsel` selects (R65). -/
def WordWidth.ofSel (sel : BitVec 2) : WordWidth :=
  match sel.toNat with
  | 0 => .w8
  | 1 => .w16
  | 2 => .w32
  | _ => .w64

/-- The `wsel` code of a width (R65). -/
def WordWidth.sel : WordWidth → BitVec 2
  | .w8 => 0
  | .w16 => 1
  | .w32 => 2
  | .w64 => 3

/-- The `n` bytes an operation samples from the data port, byte 0 first. R70: the port delivers exactly that many.
Where the host's list has another length, which R70 says cannot be expressed, the model chooses (log 6): surplus bytes
are ignored and missing ones are free values. -/
def portBytes (n : Nat) (data : List Byte) : List Byte :=
  data.take n ++ (List.range' data.length (n - data.length)).map Config.undrivenByte

/-- The port delivers exactly as many bytes as the operation samples (R70). -/
theorem portBytes_length (n : Nat) (data : List Byte) : (portBytes n data).length = n := by
  simp only [portBytes, List.length_append, List.length_take, List.length_map, List.length_range']
  omega

/-- The sampled bytes as a vector of the exact length (R70). -/
def portVector (n : Nat) (data : List Byte) : Vector Byte n :=
  ⟨(portBytes n data).toArray, by simp [portBytes_length]⟩

/-- The decoder (R64, R68, R69): the operation a command selects, with the operands that operation uses; an unused
ARG0, ARG1 or data port is ignored (R66). -/
def decode (c : Command) : Except DecodeError Instr :=
  if c.reserved ≠ 0#25 then .error .reservedBits
  else if c.wsel ≠ 0#2 ∧ c.op ≠ 2#5 then .error .widthOnOtherOperation
  else
    match c.op.toNat with
    | 0x01 => .ok (.ksLoad (portBytes c.arg0.toNat c.data))
    | 0x02 => .ok (.ksSubkey (WordWidth.ofSel c.wsel) c.arg0 c.arg1)
    | 0x03 => .ok (.itConfig c.arg0 c.arg1)
    | 0x04 => .ok (.itOffset c.arg0 c.arg1)
    | 0x05 => .ok (.bcApply c.arg0 (portVector 28 c.data))
    | 0x06 => .ok (.ftNew c.arg0)
    | 0x07 => .ok .ftGetIndex
    | 0x08 => .ok (.ftSetIndex c.arg0)
    | 0x09 => .ok .ftGetTag
    | 0x0A => .ok (.ftSetTag c.arg0)
    | 0x0B => .ok .ftTagBits
    | 0x0C => .ok .frNew
    | 0x0D => .ok .frAsBytes
    | 0x0E => .ok (.frLoadBytes (portVector 32 c.data))
    | 0x0F => .ok .frCipher
    | 0x10 => .ok (.frSetPayload c.arg0 c.arg1)
    | 0x11 => .ok (.frGetPayload c.arg0)
    | _ => .error .reservedOperation

/-- The word CTRL with a given `op` and `wsel` and its reserved bits 0 (R64). -/
def ctrlWord (wsel : BitVec 2) (op : BitVec 5) : Word := (0#25 ++ wsel) ++ op

/-- The operation code of an instruction (R68). -/
def Instr.opCode : Instr → BitVec 5
  | .ksLoad _ => 0x01
  | .ksSubkey _ _ _ => 0x02
  | .itConfig _ _ => 0x03
  | .itOffset _ _ => 0x04
  | .bcApply _ _ => 0x05
  | .ftNew _ => 0x06
  | .ftGetIndex => 0x07
  | .ftSetIndex _ => 0x08
  | .ftGetTag => 0x09
  | .ftSetTag _ => 0x0A
  | .ftTagBits => 0x0B
  | .frNew => 0x0C
  | .frAsBytes => 0x0D
  | .frLoadBytes _ => 0x0E
  | .frCipher => 0x0F
  | .frSetPayload _ _ => 0x10
  | .frGetPayload _ => 0x11

/-- The encoder (R66, R68, R73): the command a host issues for an instruction. Unused argument words are 0 and an
unused data port is empty. -/
def encode (i : Instr) : Command :=
  match i with
  | .ksLoad kdata => ⟨ctrlWord 0 i.opCode, BitVec.ofNat 32 kdata.length, 0, kdata⟩
  | .ksSubkey w wordOffset len => ⟨ctrlWord w.sel i.opCode, wordOffset, len, []⟩
  | .itConfig mask hashSel => ⟨ctrlWord 0 i.opCode, mask, hashSel, []⟩
  | .itOffset index len => ⟨ctrlWord 0 i.opCode, index, len, []⟩
  | .bcApply index wdata => ⟨ctrlWord 0 i.opCode, index, 0, wdata.toList⟩
  | .ftNew index => ⟨ctrlWord 0 i.opCode, index, 0, []⟩
  | .ftGetIndex => ⟨ctrlWord 0 i.opCode, 0, 0, []⟩
  | .ftSetIndex index => ⟨ctrlWord 0 i.opCode, index, 0, []⟩
  | .ftGetTag => ⟨ctrlWord 0 i.opCode, 0, 0, []⟩
  | .ftSetTag tag => ⟨ctrlWord 0 i.opCode, tag, 0, []⟩
  | .ftTagBits => ⟨ctrlWord 0 i.opCode, 0, 0, []⟩
  | .frNew => ⟨ctrlWord 0 i.opCode, 0, 0, []⟩
  | .frAsBytes => ⟨ctrlWord 0 i.opCode, 0, 0, []⟩
  | .frLoadBytes wdata => ⟨ctrlWord 0 i.opCode, 0, 0, wdata.toList⟩
  | .frCipher => ⟨ctrlWord 0 i.opCode, 0, 0, []⟩
  | .frSetPayload n value => ⟨ctrlWord 0 i.opCode, n, value, []⟩
  | .frGetPayload n => ⟨ctrlWord 0 i.opCode, n, 0, []⟩

/-- One row of the opcode table: the bits of CTRL a command must have (30_encoding.md R68). -/
structure OpcodeRow where
  mnemonic : String
  pattern : Word
  mask : Word
deriving DecidableEq, Repr

/-- The opcode table, match and mask on CTRL (R68 and spec/opcode_table.json). -/
def opcodeTable : List OpcodeRow :=
  [⟨"KS_LOAD", 0x00000001, 0xFFFFFFFF⟩, ⟨"KS_SUBKEY", 0x00000002, 0xFFFFFF9F⟩,
   ⟨"IT_CONFIG", 0x00000003, 0xFFFFFFFF⟩, ⟨"IT_OFFSET", 0x00000004, 0xFFFFFFFF⟩,
   ⟨"BC_APPLY", 0x00000005, 0xFFFFFFFF⟩, ⟨"FT_NEW", 0x00000006, 0xFFFFFFFF⟩,
   ⟨"FT_GET_INDEX", 0x00000007, 0xFFFFFFFF⟩, ⟨"FT_SET_INDEX", 0x00000008, 0xFFFFFFFF⟩,
   ⟨"FT_GET_TAG", 0x00000009, 0xFFFFFFFF⟩, ⟨"FT_SET_TAG", 0x0000000A, 0xFFFFFFFF⟩,
   ⟨"FT_TAG_BITS", 0x0000000B, 0xFFFFFFFF⟩, ⟨"FR_NEW", 0x0000000C, 0xFFFFFFFF⟩,
   ⟨"FR_AS_BYTES", 0x0000000D, 0xFFFFFFFF⟩, ⟨"FR_LOAD_BYTES", 0x0000000E, 0xFFFFFFFF⟩,
   ⟨"FR_CIPHER", 0x0000000F, 0xFFFFFFFF⟩, ⟨"FR_SET_PAYLOAD", 0x00000010, 0xFFFFFFFF⟩,
   ⟨"FR_GET_PAYLOAD", 0x00000011, 0xFFFFFFFF⟩]

/-- A command's CTRL matches a row of the opcode table (R68). -/
def Command.matchesRow (c : Command) (r : OpcodeRow) : Bool := c.ctrl &&& r.mask == r.pattern

/-- How many bytes the operation a command selects samples from the data port (R66, R70). -/
def Command.dataLength (c : Command) : Nat :=
  match c.op.toNat with
  | 0x01 => c.arg0.toNat
  | 0x05 => 28
  | 0x0E => 32
  | _ => 0

/-- The command whose 96 bits are the low `nbits` bits of `w`, bits above them 0, numbered as R63 numbers them (CTRL
is bits 31:0, ARG0 bits 63:32, ARG1 bits 95:64), with zero bytes driven on the data port. -/
def Command.ofTableWord (nbits w : Nat) : Command :=
  let v := w % 2 ^ nbits
  let c : Command := ⟨BitVec.ofNat 32 v, BitVec.ofNat 32 (v >>> 32), BitVec.ofNat 32 (v >>> 64), []⟩
  { c with data := List.replicate c.dataLength 0 }

/-- The instruction the decoder reads from a table word. -/
def decodeTableWord (nbits w : Nat) : Option Instr :=
  match decode (Command.ofTableWord nbits w) with
  | .ok i => some i
  | .error _ => none

end Sys2Proof
end

