-- ==== Sys2Proof/Machine/State.lean ====
section
/-! DEFINITION. The state of CORE as plain data (10_state.md R20), the statuses and results an operation answers with
(60_exceptions.md R140, 30_encoding.md R70), the host's side of the command port, and the state after reset (R36). -/

namespace Sys2Proof.Machine

/-- HASH_SEL, the hash choice of the index transform (10_state.md R28: `Identity | Custom(fn)`; its bit is 0 or 1). -/
inductive HashSel where
  | identity
  | custom
deriving DecidableEq, Repr

/-- The eleven statuses an operation can answer (60_exceptions.md R140); the codes 0xB to 0xF are never returned. -/
inductive Status where
  | ok
  | invalidKeyLength
  | subkeyTooLarge
  | misalignedAccess
  | noValidOffset
  | offsetOutOfRange
  | notConfigured
  | keyLocked
  | illegalCommand
  | faulted
  | badOperand
deriving DecidableEq, Repr

/-- What an operation returns beside its status: nothing, RESULT, `rbytes`, or `rwords` of some width
(30_encoding.md R66, R70). -/
inductive Result where
  | noResult
  | scalar (value : Word)
  | bytes (bs : List Byte)
  | words (bits : Nat) (ws : List (BitVec bits))
deriving DecidableEq, Repr

/-- One answer of CORE: a status and at most one result (30_encoding.md R70). -/
structure Response where
  status : Status
  result : Result
deriving DecidableEq, Repr

/-- What the host can do between two operations: issue a command or assert reset (70_reset_and_hazards.md R165,
R178). -/
inductive Input where
  | command (c : Command)
  | reset
deriving DecidableEq, Repr

/-- Why the model stops. Each is a use of key memory that the rules exclude, raised by the key memory operations of
Machine/Ops.lean alone; none can happen in a state that a run reaches (log 3, log 10). All three are safe: the model
stops where the spec gives no behaviour. -/
inductive Fault where
  /-- A read of `n` bytes at `a` that does not lie below KEY_LEN (20_memory.md R43, R46). Safe. -/
  | keyReadBeyondLength (a n : Nat)
  /-- An access to a key memory address at or above KEY_CAP_BYTES, which does not exist (R40). Safe. -/
  | noSuchKeyAddress (a : Nat)
  /-- A read of a byte of key memory that nothing has written (10_state.md R36: "a model must give the item no value").
  Safe. -/
  | keyByteWithoutValue (a : Nat)
deriving DecidableEq, Repr

/-- Why the model refuses. No meaning of this model refuses. -/
inductive Refusal where
  /-- Raised by an arm of `exec` whose instruction has no meaning yet; no arm is left so. Safe. -/
  | notModelled (mnemonic : String)
deriving DecidableEq, Repr

/-- How the pseudocode of an operation ends early: it raises a status (00_scope.md R12), or the model stops. -/
inductive Stop where
  | status (S : Status)
  | fault (f : Fault)
deriving DecidableEq, Repr

/-- Key memory as the bytes that have been written, sorted by address. An unlisted address has no value
(10_state.md R36; log 3). -/
abbrev Memory := List Host.Cell

/-- The canonical form of key memory: addresses strictly rising and all below KEY_CAP_BYTES. An unlisted byte has no
value, so no entry can equal what an unlisted address reads as. -/
abbrev Memory.wf (m : Memory) : Prop :=
  m.Pairwise (fun x y => x.1 < y.1) ∧ ∀ c ∈ m, c.1 < Config.keyCapBytes

/-- The state: the items of 10_state.md R20 (the status outputs are wires, not storage, R31), then the model's own two
fields for the host's side of the port (log 4). -/
structure State where
  /-- FW[0..7], the frame word registers (R21): `fw[0]` is TAGW (R22), `fw[1+i]` is P[i] (R23). -/
  fw : Vector Word 8
  /-- KEY, the key memory (R24). -/
  key : Memory
  /-- KEY_LEN, the length in bytes of the key material (R25). -/
  keyLen : Word
  /-- KS_VALID (R26). -/
  ksValid : Bool
  /-- MASK, the secret index mask (R27). -/
  mask : Word
  /-- HASH_SEL (R28). -/
  hashSel : HashSel
  /-- IT_VALID (R29). -/
  itValid : Bool
  /-- FAULT, 0 or the code of the first fatal status (R30). -/
  fault : BitVec 4
  /-- The model's own: what the host has chosen to issue next, oldest first (70_reset_and_hazards.md R177; log 4). -/
  inputs : List Input
  /-- The model's own: the statuses and results returned so far, oldest first (R177; log 4). -/
  outputs : List Response
deriving DecidableEq, Repr

/-- The state after reset (10_state.md R36, 70_reset_and_hazards.md R165). KEY has no value; the values of KEY_LEN and
MASK are the model's (log 1, log 2), which R36 leaves unspecified and no operation can read. -/
def State.reset : State where
  fw := #v[0, 0, 0, 0, 0, 0, 0, 0]
  key := []
  keyLen := Config.resetKeyLen
  ksValid := false
  mask := Config.resetMask
  hashSel := .identity
  itValid := false
  fault := 0
  inputs := []
  outputs := []

end Sys2Proof.Machine
end

