-- ==== Sys2Proof/Machine/Operands.lean ====
section
/-! DEFINITION. How operands are read (30_encoding.md R67), the conversions between bytes and words (20_memory.md R41),
and the fields of the tag word (30_encoding.md R61). -/

namespace Sys2Proof.Machine

/-- The natural number a list of bytes spells, lowest byte first (20_memory.md R41). -/
def natOfBytes : List Byte → Nat
  | [] => 0
  | b :: bs => b.toNat + 256 * natOfBytes bs

/-- `word_of_bytes`: the word of `bits` bits that the bytes spell, little-endian (R41, D3). -/
def wordOfBytes (bits : Nat) (bs : List Byte) : BitVec bits := BitVec.ofNat bits (natOfBytes bs)

/-- `bytes_of_word`: the low `n` bytes of a word, lowest first (R41, D3). -/
def bytesOfWord {bits : Nat} (w : BitVec bits) (n : Nat) : List Byte :=
  (List.range n).map fun i => w.extractLsb' (8 * i) 8

/-- `bs[i .. i+n)`, a sub-list (00_scope.md R11). -/
def slice (bs : List Byte) (i n : Nat) : List Byte := (bs.drop i).take n

/-- The words a byte list spells, four bytes each: word `i` of the list (42_block_cipher.md R100 step 1,
44_frame.md R127). -/
def wordAt (bs : List Byte) (i : Nat) : Word :=
  wordOfBytes Config.wordBits (slice bs (Config.wordBytes * i) Config.wordBytes)

/-- The bytes of a list of words, in order (42_block_cipher.md R100, 44_frame.md R126). -/
def bytesOfWords (ws : List Word) : List Byte := ws.flatMap fun w => bytesOfWord w Config.wordBytes

/-- The low INDEX_BITS bits of an index operand or tag word (30_encoding.md R61, R67 b). -/
def indexField (w : Word) : BitVec Config.indexBits := w.extractLsb' 0 Config.indexBits

/-- The high TAG_BITS bits of a tag word (30_encoding.md R61). -/
def tagField (w : Word) : BitVec Config.tagBits := w.extractLsb' Config.indexBits Config.tagBits

/-- The low TAG_BITS bits of a tag operand; overflow bits are discarded without error (30_encoding.md R67 c). -/
def tagOperand (w : Word) : BitVec Config.tagBits := w.extractLsb' 0 Config.tagBits

/-- The tag word `{tag, index}` (30_encoding.md R61). -/
def tagWord (tag : BitVec Config.tagBits) (index : BitVec Config.indexBits) : Word := tag ++ index

/-- The hash choice of an IT_CONFIG operand, 0 or 1; any other value is a BadOperand (30_encoding.md R67 e). -/
def hashSelOperand (w : Word) : Except Stop HashSel :=
  match w.toNat with
  | 0 => .ok .identity
  | 1 => .ok .custom
  | _ => .error (.status .badOperand)

/-- The register number of payload word `i`: FW[1 + i]; a number of PAYLOAD_WORDS or more is a BadOperand
(44_frame.md R128, R129). -/
def payloadRegister (i : Word) : Except Stop (Fin 8) :=
  if h : i.toNat < Config.payloadWords then .ok ⟨1 + i.toNat, Nat.add_lt_add_left h 1⟩
  else .error (.status .badOperand)

end Sys2Proof.Machine
end

