-- ==== Sys2Proof/Machine/Flags.lean ====
section
/-! DEFINITION. The flag-like state of CORE. It has no condition codes (10_state.md R33): what stands in their place
are the status codes (60_exceptions.md R140), the fault latch (R150), the valid flags an operation needs (R152) and the
status outputs (10_state.md R31). -/

namespace Sys2Proof.Machine

/-- The 4-bit code of a status (60_exceptions.md R140). -/
def Status.code : Status → BitVec 4
  | .ok => 0x0
  | .invalidKeyLength => 0x1
  | .subkeyTooLarge => 0x2
  | .misalignedAccess => 0x3
  | .noValidOffset => 0x4
  | .offsetOutOfRange => 0x5
  | .notConfigured => 0x6
  | .keyLocked => 0x7
  | .illegalCommand => 0x8
  | .faulted => 0x9
  | .badOperand => 0xA

/-- Which statuses are fatal: the codes 1 to 5 (R140, R150). -/
def Status.fatal : Status → Bool
  | .ok => false
  | .invalidKeyLength => true
  | .subkeyTooLarge => true
  | .misalignedAccess => true
  | .noValidOffset => true
  | .offsetOutOfRange => true
  | .notConfigured => false
  | .keyLocked => false
  | .illegalCommand => false
  | .faulted => false
  | .badOperand => false

/-- What raising `S` leaves in FAULT: a fatal status sets the latch if it is 0, and the first code is kept (R150,
R157). -/
def latchFault (fault : BitVec 4) (S : Status) : BitVec 4 :=
  if S.fatal ∧ fault = 0#4 then S.code else fault

/-- Which valid flags an operation needs (R147, R152). -/
inductive Needs where
  | nothing
  | key
  | keyAndTransform
deriving DecidableEq, Repr

/-- The common check of the valid flags (R152, lines 3 and 4). -/
def Needs.met (n : Needs) (s : State) : Bool :=
  match n with
  | .nothing => true
  | .key => s.ksValid
  | .keyAndTransform => s.ksValid && s.itValid

/-- The status output `fault_o` copies FAULT (10_state.md R31). -/
def State.faultO (s : State) : BitVec 4 := s.fault

/-- The status output `ks_valid_o` copies KS_VALID (10_state.md R31). -/
def State.ksValidO (s : State) : Bool := s.ksValid

/-- The status output `it_valid_o` copies IT_VALID (10_state.md R31). -/
def State.itValidO (s : State) : Bool := s.itValid

end Sys2Proof.Machine
end

