-- ==== Sys2Proof/Machine/Ops.lean ====
section
/-! DEFINITION. The named operations every meaning is written over: key memory (20_memory.md R43), the frame registers
(00_scope.md R10), completing and raising (00_scope.md R12, 60_exceptions.md R150), the common checks (R152), and reset
(70_reset_and_hazards.md R165). -/

namespace Sys2Proof.Machine

/-- The pseudocode of an operation: it gives a value, or stops early with a status or a fault (00_scope.md R12). -/
abbrev Attempt (α : Type) := Except Stop α

/-- `raise S` inside the pseudocode of an operation (00_scope.md R12). What it does to the state is `State.raise`. -/
def raising {α : Type} (S : Status) : Attempt α := .error (.status S)

/-- The byte key memory lists at an address, if it lists one. -/
def readCell : Memory → Nat → Option Byte
  | [], _ => none
  | (a, b) :: m, x => if x = a then some b else readCell m x

/-- Key memory with one byte written, in canonical form again. -/
def writeCell : Memory → Nat → Byte → Memory
  | [], x, v => [(x, v)]
  | (a, b) :: m, x, v =>
    if x < a then (x, v) :: (a, b) :: m
    else if x = a then (x, v) :: m
    else (a, b) :: writeCell m x v

/-- Key memory with the bytes of a list written at `a`, `a+1`, …. -/
def writeCells (m : Memory) (a : Nat) : List Byte → Memory
  | [] => m
  | b :: bs => writeCell (writeCells m (a + 1) bs) a b

/-- `KEY[a]` (10_state.md R24): an address at or above KEY_CAP_BYTES does not exist, and a byte nothing has written has
no value (R36; log 3). -/
def readByte (m : Memory) (a : Nat) : Attempt Byte :=
  if a < Config.keyCapBytes then
    match readCell m a with
    | some b => .ok b
    | none => .error (.fault (.keyByteWithoutValue a))
  else .error (.fault (.noSuchKeyAddress a))

/-- `[KEY[a], KEY[a+1], ..., KEY[a+n-1]]`. -/
def readBytes (m : Memory) (a : Nat) : Nat → Attempt (List Byte)
  | 0 => .ok []
  | n + 1 => do
    let b ← readByte m a
    let bs ← readBytes m (a + 1) n
    .ok (b :: bs)

/-- `MemRead(a, n)` (20_memory.md R43), defined only for `a + n <= nat(KEY_LEN)`. -/
def State.memRead (s : State) (a n : Nat) : Attempt (List Byte) :=
  if a + n ≤ s.keyLen.toNat then readBytes s.key a n
  else .error (.fault (.keyReadBeyondLength a n))

/-- `MemWrite(a, n, bs)` with `n` the length of `bs` (00_scope.md R10), used by KS_LOAD only. -/
def State.memWrite (s : State) (a : Nat) (bs : List Byte) : Attempt State :=
  if a + bs.length ≤ Config.keyCapBytes then .ok { s with key := writeCells s.key a bs }
  else .error (.fault (.noSuchKeyAddress (a + bs.length)))

/-- `FW[i]` (00_scope.md R10). -/
def State.fwRead (s : State) (i : Fin 8) : Word := s.fw[i]

/-- `FW[i] <- v` (00_scope.md R10). -/
def State.fwWrite (s : State) (i : Fin 8) (v : Word) : State := { s with fw := s.fw.set i v }

/-- `TAGW`, another name of FW[0] (00_scope.md R10). -/
def State.tagw (s : State) : Word := s.fwRead 0

/-- `P[i]`, another name of FW[1+i] (00_scope.md R10, 10_state.md R23). -/
def State.payload (s : State) (i : Fin 7) : Word := s.fwRead i.succ

/-- All eight frame registers written at once. -/
def State.fwWriteAll (s : State) (w : Fin 8 → Word) : State := { s with fw := Vector.ofFn w }

/-- `P[i] <- w i` for all seven payload words; FW[0] is not written. -/
def State.payloadWriteAll (s : State) (w : Fin 7 → Word) : State :=
  { s with fw := Vector.ofFn (Fin.cases (s.fwRead 0) w) }

/-- `total_words(W)`, the whole W-bit words of the key material (10_state.md R38, D7). -/
def State.totalWords (s : State) (bits : Nat) : Nat := s.keyLen.toNat / (bits / 8)

/-- The completion of an operation: status OK and its result are returned (00_scope.md R12). -/
def State.complete (s : State) (r : Result) : State := { s with outputs := s.outputs ++ [⟨.ok, r⟩] }

/-- Fault entry (60_exceptions.md R150): the status is returned, with no result; a fatal status sets FAULT if it is 0;
nothing else is written, saved or redirected. -/
def State.raise (s : State) (S : Status) : State :=
  { s with fault := latchFault s.fault S, outputs := s.outputs ++ [⟨S, .noResult⟩] }

/-- There is no return from a fault but reset (60_exceptions.md R157). Reset gives every item of state its reset value
(70_reset_and_hazards.md R165, 10_state.md R36); what the host still means to issue and what it has been answered are
not CORE's (log 4). -/
def State.applyReset (s : State) : State := { State.reset with inputs := s.inputs, outputs := s.outputs }

/-- The answer to a command word that selects no operation (60_exceptions.md R149, R152 lines 1 and 2): a latched fault
is reported first. -/
def State.rejectIllegal (s : State) : State :=
  if s.fault ≠ 0#4 then s.raise .faulted else s.raise .illegalCommand

/-- How the pseudocode's end becomes the step's outcome (00_scope.md R12): a completed operation has made its writes, a
raising one has made none (60_exceptions.md R154). -/
def settle (s : State) (a : Attempt (State × Result)) : Host.Outcome State Fault Refusal :=
  match a with
  | .ok (t, r) => .next (t.complete r)
  | .error (.status S) => .next (s.raise S)
  | .error (.fault f) => .fault f

/-- One operation: the common checks (60_exceptions.md R152) and then its own pseudocode. -/
def perform (needs : Needs) (body : State → Attempt (State × Result)) (s : State) :
    Host.Outcome State Fault Refusal :=
  if s.fault ≠ 0#4 then .next (s.raise .faulted)
  else if needs.met s = false then .next (s.raise .notConfigured)
  else settle s (body s)

/-- The host's next input taken off the queue. -/
def State.popInput (s : State) : State := { s with inputs := s.inputs.tail }

/-- What stands at the command port when a step begins (70_reset_and_hazards.md R165, R177): nothing, a reset, or a
command with what it decodes to. -/
inductive Arrival where
  | idle
  | reset
  | illegal
  | operation (i : Instr)
deriving DecidableEq, Repr

/-- The next input and, for a command, its decoding (30_encoding.md R68, R69). -/
def State.arrival (s : State) : Arrival :=
  match s.inputs with
  | [] => .idle
  | .reset :: _ => .reset
  | .command c :: _ =>
    match decode c with
    | .ok i => .operation i
    | .error _ => .illegal

end Sys2Proof.Machine
end

