-- ==== Sys2Proof/Machine/KeyStore.lean ====
section
/-! DEFINITION. KeyStore: KS_LOAD and KS_SUBKEY (40_keystore.md R80 to R84). -/

namespace Sys2Proof.Machine

/-- The pseudocode of KS_LOAD (R80): the key is loaded once; its length is a multiple of WORD_BYTES and at most
KEY_CAP_BYTES; CORE stores a copy. -/
def ksLoadBody (kdata : List Byte) (s : State) : Attempt (State × Result) :=
  if s.ksValid then raising .keyLocked
  else if kdata.length % Config.wordBytes ≠ 0 then raising .invalidKeyLength
  else if kdata.length > Config.keyCapBytes then raising .invalidKeyLength
  else do
    let t ← s.memWrite 0 kdata
    .ok ({ t with keyLen := BitVec.ofNat 32 kdata.length, ksValid := true }, .noResult)

/-- KS_LOAD (R80). Needs no valid flag. -/
def execKsLoad (kdata : List Byte) (s : State) : Host.Outcome State Fault Refusal :=
  perform .nothing (ksLoadBody kdata) s

/-- `kw_W(j)`, word `j` of the W-bit view of key memory (20_memory.md R43). -/
def State.keyWord (s : State) (bits j : Nat) : Attempt (BitVec bits) := do
  let bs ← s.memRead (j * (bits / 8)) (bits / 8)
  .ok (wordOfBytes bits bs)

/-- `subkey_W(off, L)`, the `len` words from word `off` on, in ascending key address (R82, 30_encoding.md R70). -/
def State.subkey (s : State) (bits off : Nat) : Nat → Attempt (List (BitVec bits))
  | 0 => .ok []
  | len + 1 => do
    let w ← s.keyWord bits off
    let ws ← s.subkey bits (off + 1) len
    .ok (w :: ws)

/-- The pseudocode of KS_SUBKEY (R82): alignment, then length, then offset; the offset is never reduced. -/
def ksSubkeyBody (w : WordWidth) (wordOffset len : Word) (s : State) : Attempt (State × Result) :=
  if w.bits / 8 > Config.keyAlign then raising .misalignedAccess
  else if len.toNat > s.totalWords w.bits then raising .subkeyTooLarge
  else if wordOffset.toNat + len.toNat > s.totalWords w.bits then raising .offsetOutOfRange
  else do
    let ws ← s.subkey w.bits wordOffset.toNat len.toNat
    .ok (s, .words w.bits ws)

/-- KS_SUBKEY (R82). Needs KS_VALID. -/
def execKsSubkey (w : WordWidth) (wordOffset len : Word) (s : State) : Host.Outcome State Fault Refusal :=
  perform .key (ksSubkeyBody w wordOffset len) s

end Sys2Proof.Machine
end

