-- ==== Sys2Proof/Machine/IndexTransform.lean ====
section
/-! DEFINITION. IndexTransform: IT_CONFIG and IT_OFFSET (41_index_transform.md R90 to R95). -/

namespace Sys2Proof.Machine

/-- The pseudocode of IT_CONFIG (R90). -/
def itConfigBody (mask hashSel : Word) (s : State) : Attempt (State × Result) := do
  let h ← hashSelOperand hashSel
  .ok ({ s with mask := mask, hashSel := h, itValid := true }, .noResult)

/-- IT_CONFIG (R90). Needs no valid flag. -/
def execItConfig (mask hashSel : Word) (s : State) : Host.Outcome State Fault Refusal :=
  perform .nothing (itConfigBody mask hashSel) s

/-- The hash `h` (R91). -/
def HashSel.apply (h : HashSel) (x : Word) : Word :=
  match h with
  | .identity => x
  | .custom => Config.hashCustom x

/-- `offset_for(index, L)` (R92): the masked and hashed index modulo the number of valid starting positions. -/
def State.offsetFor (s : State) (index : Word) (len : Nat) : Attempt Nat :=
  if len > s.totalWords Config.wordBits then raising .noValidOffset
  else
    let maxIndex := s.totalWords Config.wordBits - len + 1
    let masked := index ^^^ s.mask
    let hashed := s.hashSel.apply masked
    .ok (hashed.toNat % maxIndex)

/-- The pseudocode of IT_OFFSET (R93). -/
def itOffsetBody (index len : Word) (s : State) : Attempt (State × Result) := do
  let off ← s.offsetFor index len.toNat
  .ok (s, .scalar (BitVec.ofNat 32 off))

/-- IT_OFFSET (R93). Needs KS_VALID and IT_VALID. -/
def execItOffset (index len : Word) (s : State) : Host.Outcome State Fault Refusal :=
  perform .keyAndTransform (itOffsetBody index len) s

end Sys2Proof.Machine
end

