-- ==== Sys2Proof/Machine/BlockCipher.lean ====
section
/-! DEFINITION. BlockCipher: BC_APPLY (42_block_cipher.md R100 to R105). -/

namespace Sys2Proof.Machine

/-- `bc_apply(index, block)` (R100), the XOR datapath: the block's words, each XORed with the word of the subkey window
at `offset_for(index, L_BLOCK)`. Encrypt and decrypt are this one function (R105). -/
def State.bcApply (s : State) (index : Word) (block : List Byte) : Attempt (List Byte) := do
  let ws := (List.range Config.lBlock).map (wordAt block)
  let off ← s.offsetFor index Config.lBlock
  let sk ← s.subkey Config.wordBits off Config.lBlock
  .ok (bytesOfWords (List.zipWith (· ^^^ ·) ws sk))

/-- The pseudocode of BC_APPLY (R101): the index is not truncated, and the block goes in and out by value. -/
def bcApplyBody (index : Word) (wdata : Vector Byte 28) (s : State) : Attempt (State × Result) := do
  let out ← s.bcApply index wdata.toList
  .ok (s, .bytes out)

/-- BC_APPLY (R101). Needs KS_VALID and IT_VALID. -/
def execBcApply (index : Word) (wdata : Vector Byte 28) (s : State) : Host.Outcome State Fault Refusal :=
  perform .keyAndTransform (bcApplyBody index wdata) s

end Sys2Proof.Machine
end

