-- ==== Sys2Proof/Machine/FrameTag.lean ====
section
/-! DEFINITION. FrameTag: the six FT operations on the tag word FW[0] (43_frame_tag.md R110 to R118). None needs a
valid flag. -/

namespace Sys2Proof.Machine

/-- `ft_new(index)` (R111): the index truncated to INDEX_BITS, the tag bits zero. -/
def ftNew (index : Word) : Word := tagWord 0 (indexField index)

/-- `ft_get_index(t)` (R112): the index field, zero-extended. -/
def ftGetIndex (t : Word) : Word := (indexField t).setWidth 32

/-- `ft_set_index(t, index)` (R113): the index truncated to INDEX_BITS, the tag field kept. -/
def ftSetIndex (t index : Word) : Word := tagWord (tagField t) (indexField index)

/-- `ft_get_tag(t)` (R114): the tag field shifted down, zero-extended. -/
def ftGetTag (t : Word) : Word := (tagField t).setWidth 32

/-- `ft_set_tag(t, tag)` (R115): the tag truncated to TAG_BITS, the index field kept. -/
def ftSetTag (t tag : Word) : Word := tagWord (tagOperand tag) (indexField t)

/-- `ft_tag_bits_count()` (R116), a constant of the instance. -/
def ftTagBitsCount : Word := BitVec.ofNat 32 Config.tagBits

/-- The pseudocode of FT_NEW (R111): the payload words are not touched. -/
def ftNewBody (index : Word) (s : State) : Attempt (State × Result) := .ok (s.fwWrite 0 (ftNew index), .noResult)

/-- FT_NEW (R111). -/
def execFtNew (index : Word) (s : State) : Host.Outcome State Fault Refusal := perform .nothing (ftNewBody index) s

/-- The pseudocode of FT_GET_INDEX (R112). -/
def ftGetIndexBody (s : State) : Attempt (State × Result) := .ok (s, .scalar (ftGetIndex s.tagw))

/-- FT_GET_INDEX (R112). -/
def execFtGetIndex (s : State) : Host.Outcome State Fault Refusal := perform .nothing ftGetIndexBody s

/-- The pseudocode of FT_SET_INDEX (R113). -/
def ftSetIndexBody (index : Word) (s : State) : Attempt (State × Result) :=
  .ok (s.fwWrite 0 (ftSetIndex s.tagw index), .noResult)

/-- FT_SET_INDEX (R113). -/
def execFtSetIndex (index : Word) (s : State) : Host.Outcome State Fault Refusal :=
  perform .nothing (ftSetIndexBody index) s

/-- The pseudocode of FT_GET_TAG (R114). -/
def ftGetTagBody (s : State) : Attempt (State × Result) := .ok (s, .scalar (ftGetTag s.tagw))

/-- FT_GET_TAG (R114). -/
def execFtGetTag (s : State) : Host.Outcome State Fault Refusal := perform .nothing ftGetTagBody s

/-- The pseudocode of FT_SET_TAG (R115). -/
def ftSetTagBody (tag : Word) (s : State) : Attempt (State × Result) :=
  .ok (s.fwWrite 0 (ftSetTag s.tagw tag), .noResult)

/-- FT_SET_TAG (R115). -/
def execFtSetTag (tag : Word) (s : State) : Host.Outcome State Fault Refusal := perform .nothing (ftSetTagBody tag) s

/-- The pseudocode of FT_TAG_BITS (R116): it reads no state. -/
def ftTagBitsBody (s : State) : Attempt (State × Result) := .ok (s, .scalar ftTagBitsCount)

/-- FT_TAG_BITS (R116). -/
def execFtTagBits (s : State) : Host.Outcome State Fault Refusal := perform .nothing ftTagBitsBody s

end Sys2Proof.Machine
end

