-- ==== Sys2Proof/Machine/Frame.lean ====
section
/-! DEFINITION. Frame: the six FR operations on the frame registers (44_frame.md R125 to R134). -/

namespace Sys2Proof.Machine

/-- The pseudocode of FR_NEW (R125): all eight registers become 0. -/
def frNewBody (s : State) : Attempt (State × Result) := .ok (s.fwWriteAll fun _ => 0, .noResult)

/-- FR_NEW (R125). -/
def execFrNew (s : State) : Host.Outcome State Fault Refusal := perform .nothing frNewBody s

/-- `frame_bytes()` (R126; 20_memory.md R45): the 32 bytes of the frame, the tag word first. -/
def State.frameBytes (s : State) : List Byte := bytesOfWords s.fw.toList

/-- The pseudocode of FR_AS_BYTES (R126). -/
def frAsBytesBody (s : State) : Attempt (State × Result) := .ok (s, .bytes s.frameBytes)

/-- FR_AS_BYTES (R126). -/
def execFrAsBytes (s : State) : Host.Outcome State Fault Refusal := perform .nothing frAsBytesBody s

/-- The pseudocode of FR_LOAD_BYTES (R127): every 32-byte sequence is a legal frame. -/
def frLoadBytesBody (wdata : Vector Byte 32) (s : State) : Attempt (State × Result) :=
  .ok (s.fwWriteAll fun i => wordAt wdata.toList i, .noResult)

/-- FR_LOAD_BYTES (R127). -/
def execFrLoadBytes (wdata : Vector Byte 32) (s : State) : Host.Outcome State Fault Refusal :=
  perform .nothing (frLoadBytesBody wdata) s

/-- The payload as a block of 28 bytes (R130; 10_state.md R23). -/
def State.payloadBytes (s : State) : List Byte := bytesOfWords ((List.finRange 7).map s.payload)

/-- The pseudocode of FR_CIPHER (R130): the block cipher on the payload, at the frame's own index; FW[0] is never
written (R132). -/
def frCipherBody (s : State) : Attempt (State × Result) := do
  let out ← s.bcApply (ftGetIndex s.tagw) s.payloadBytes
  .ok (s.payloadWriteAll fun i => wordAt out i, .noResult)

/-- FR_CIPHER (R130). Needs KS_VALID and IT_VALID. -/
def execFrCipher (s : State) : Host.Outcome State Fault Refusal :=
  perform .keyAndTransform frCipherBody s

/-- The pseudocode of FR_SET_PAYLOAD (R128). -/
def frSetPayloadBody (i value : Word) (s : State) : Attempt (State × Result) := do
  let r ← payloadRegister i
  .ok (s.fwWrite r value, .noResult)

/-- FR_SET_PAYLOAD (R128). -/
def execFrSetPayload (i value : Word) (s : State) : Host.Outcome State Fault Refusal :=
  perform .nothing (frSetPayloadBody i value) s

/-- The pseudocode of FR_GET_PAYLOAD (R129). -/
def frGetPayloadBody (i : Word) (s : State) : Attempt (State × Result) := do
  let r ← payloadRegister i
  .ok (s, .scalar (s.fwRead r))

/-- FR_GET_PAYLOAD (R129). -/
def execFrGetPayload (i : Word) (s : State) : Host.Outcome State Fault Refusal :=
  perform .nothing (frGetPayloadBody i) s

end Sys2Proof.Machine
end

