-- ==== Sys2Proof/Machine/Dispatch.lean ====
section
/-! DEFINITION. The dispatch of every operation of 30_encoding.md R68 to its meaning. -/

namespace Sys2Proof.Machine

def exec (i : Instr) (s : State) : Host.Outcome State Fault Refusal :=
  match i with
  | .ksLoad kdata => Sys2Proof.Machine.execKsLoad kdata s
  | .ksSubkey w wordOffset len => Sys2Proof.Machine.execKsSubkey w wordOffset len s
  | .itConfig mask hashSel => Sys2Proof.Machine.execItConfig mask hashSel s
  | .itOffset index len => Sys2Proof.Machine.execItOffset index len s
  | .bcApply index wdata => Sys2Proof.Machine.execBcApply index wdata s
  | .ftNew index => Sys2Proof.Machine.execFtNew index s
  | .ftGetIndex => Sys2Proof.Machine.execFtGetIndex s
  | .ftSetIndex index => Sys2Proof.Machine.execFtSetIndex index s
  | .ftGetTag => Sys2Proof.Machine.execFtGetTag s
  | .ftSetTag tag => Sys2Proof.Machine.execFtSetTag tag s
  | .ftTagBits => Sys2Proof.Machine.execFtTagBits s
  | .frNew => Sys2Proof.Machine.execFrNew s
  | .frAsBytes => Sys2Proof.Machine.execFrAsBytes s
  | .frLoadBytes wdata => Sys2Proof.Machine.execFrLoadBytes wdata s
  | .frCipher => Sys2Proof.Machine.execFrCipher s
  | .frSetPayload n value => Sys2Proof.Machine.execFrSetPayload n value s
  | .frGetPayload n => Sys2Proof.Machine.execFrGetPayload n s

end Sys2Proof.Machine
end

