-- ==== Sys2Proof/Machine/Step.lean ====
section
/-! DEFINITION. One step of CORE (00_scope.md R7, R8): the host's next input is taken and answered. -/

namespace Sys2Proof.Machine

/-- One step. With nothing at the port CORE is idle and keeps all its state (60_exceptions.md R161,
70_reset_and_hazards.md R166; log 5); a reset gives the reset values (R165); an illegal command is answered
(60_exceptions.md R149); any other command runs the operation it decodes to. -/
def step (s : State) : Host.Outcome State Fault Refusal :=
  match s.arrival with
  | .idle => .next s
  | .reset => .next s.popInput.applyReset
  | .illegal => .next s.popInput.rejectIllegal
  | .operation i => exec i s.popInput

/-- The state with one command placed at the head of what the host issues, so that the very next step runs it: CORE has
no program (10_state.md R32), and a command comes from the host (log 4). -/
def State.withFetchWord (s : State) (nbits w : Nat) : State :=
  { s with inputs := .command (Command.ofTableWord nbits w) :: s.inputs }

end Sys2Proof.Machine
end

