-- ==== Sys2Proof/Machine/Written.lean ====
section
/-! DEFINITION. The written form of a command (30_encoding.md R71), its words in hexadecimal (R73), and the
pseudo-operations as the fixed sequences of operations they stand for (R72). -/

namespace Sys2Proof.Machine

/-- One hexadecimal digit; `ten` is the character of the digit ten, `A` or `a`. -/
def hexDigit (ten : Char) (n : Nat) : Char :=
  if n < 10 then Char.ofNat (48 + n) else Char.ofNat (ten.toNat + (n - 10))

/-- The low `digits` hexadecimal digits of a number, most significant first. -/
def hexDigits (ten : Char) : Nat → Nat → List Char
  | 0, _ => []
  | digits + 1, n => hexDigits ten digits (n / 16) ++ [hexDigit ten (n % 16)]

/-- A word as 8 hexadecimal digits (R73). -/
def hexWord (w : Word) : String := String.ofList (hexDigits 'A' 8 w.toNat)

/-- A byte list as `[b0 b1 ...]` in hexadecimal without a leading 0x, byte 0 first (R71). -/
def writtenBytes (bs : List Byte) : String :=
  "[" ++ String.intercalate " " (bs.map fun b => String.ofList (hexDigits 'a' 2 b.toNat)) ++ "]"

/-- A number operand, in decimal (R71; 00_scope.md R9). -/
def writtenNumber (w : Word) : String := toString w.toNat

/-- The `hash_sel` operand: `identity` for 0 and `custom` for 1 (R71). -/
def writtenHashSel (w : Word) : String :=
  match w.toNat with
  | 0 => "identity"
  | 1 => "custom"
  | _ => writtenNumber w

/-- The width suffix of KS_SUBKEY (R71). -/
def writtenWidth : WordWidth → String
  | .w8 => ".w8"
  | .w16 => ".w16"
  | .w32 => ".w32"
  | .w64 => ".w64"

/-- The written form of a command: the mnemonic, then ARG0, ARG1 and the data operand, separated by commas (R71). -/
def written : Instr → String
  | .ksLoad kdata => "KS_LOAD " ++ writtenBytes kdata
  | .ksSubkey w wordOffset len =>
    "KS_SUBKEY" ++ writtenWidth w ++ " " ++ writtenNumber wordOffset ++ ", " ++ writtenNumber len
  | .itConfig mask hashSel => "IT_CONFIG " ++ writtenNumber mask ++ ", " ++ writtenHashSel hashSel
  | .itOffset index len => "IT_OFFSET " ++ writtenNumber index ++ ", " ++ writtenNumber len
  | .bcApply index wdata => "BC_APPLY " ++ writtenNumber index ++ ", " ++ writtenBytes wdata.toList
  | .ftNew index => "FT_NEW " ++ writtenNumber index
  | .ftGetIndex => "FT_GET_INDEX"
  | .ftSetIndex index => "FT_SET_INDEX " ++ writtenNumber index
  | .ftGetTag => "FT_GET_TAG"
  | .ftSetTag tag => "FT_SET_TAG " ++ writtenNumber tag
  | .ftTagBits => "FT_TAG_BITS"
  | .frNew => "FR_NEW"
  | .frAsBytes => "FR_AS_BYTES"
  | .frLoadBytes wdata => "FR_LOAD_BYTES " ++ writtenBytes wdata.toList
  | .frCipher => "FR_CIPHER"
  | .frSetPayload i value => "FR_SET_PAYLOAD " ++ writtenNumber i ++ ", " ++ writtenNumber value
  | .frGetPayload i => "FR_GET_PAYLOAD " ++ writtenNumber i

/-- The three command words as `CTRL ARG0 ARG1` in hexadecimal (R73). -/
def writtenWords (c : Command) : String :=
  hexWord c.ctrl ++ " " ++ hexWord c.arg0 ++ " " ++ hexWord c.arg1

/-- ENCRYPT is FR_CIPHER (R72). -/
def pseudoEncrypt : List Instr := [.frCipher]

/-- DECRYPT is FR_CIPHER (R72). -/
def pseudoDecrypt : List Instr := [.frCipher]

/-- `FR_SEND idx, w0, ..., w6`, the sender flow (R72). -/
def pseudoFrSend (idx : Word) (w : Vector Word 7) : List Instr :=
  [.frNew] ++ (List.finRange 7).map (fun i => .frSetPayload (BitVec.ofNat 32 i) w[i]) ++
    [.ftSetIndex idx, .frCipher, .frAsBytes]

/-- `FR_RECV bytes`, the receiver flow (R72). -/
def pseudoFrRecv (bytes : Vector Byte 32) : List Instr :=
  [.frLoadBytes bytes, .frCipher] ++ (List.finRange 7).map fun i => .frGetPayload (BitVec.ofNat 32 i)

/-- `SETUP key, mask` (R72). -/
def pseudoSetup (key : List Byte) (mask : Word) : List Instr := [.ksLoad key, .itConfig mask 0]

/-- What the host issues for a sequence of operations. -/
def commandsOf (is : List Instr) : List Input := is.map fun i => .command (encode i)

end Sys2Proof.Machine
end

