-- ==== Sys2Proof/Safety.lean ====
section
/-! DEFINITION. What a good state of CORE is, in the terms the statements use: the invariant of its runs (10_state.md
R37), when the per-message operations cannot fail (60_exceptions.md R155), what of a state can be observed
(10_state.md R36), and which statuses an operation may answer (60_exceptions.md R153). -/

namespace Sys2Proof.Machine

/-- The key store holds usable key material: its length is legal (R37 a) and every byte below KEY_LEN has a value. -/
abbrev State.keyReady (s : State) : Prop :=
  s.keyLen.toNat ≤ Config.keyCapBytes ∧ s.keyLen.toNat % Config.wordBytes = 0 ∧
    ∀ a < s.keyLen.toNat, (readCell s.key a).isSome = true

/-- What a latched fault tells (60_exceptions.md R141 to R145, R150): FAULT is 0 or the code of a fatal status, and the
valid flags are as the operations that raise that status need them; a failed construction leaves KS_VALID 0. -/
abbrev State.latchConsistent (s : State) : Prop :=
  s.fault.toNat ≤ 5 ∧ (s.fault = 1#4 → s.ksValid = false) ∧
    (s.fault = 2#4 ∨ s.fault = 3#4 ∨ s.fault = 5#4 → s.ksValid = true) ∧
    (s.fault = 4#4 → s.ksValid = true ∧ s.itValid = true)

/-- No answer carries data beside a status other than OK (30_encoding.md R70, 60_exceptions.md R163). -/
abbrev Response.clean (r : Response) : Prop := r.status ≠ .ok → r.result = .noResult

/-- The invariant of a run: key memory in canonical form, usable key material while KS_VALID is 1, a legal fault latch,
and no data beside a failure. -/
abbrev State.inv (s : State) : Prop :=
  s.key.wf ∧ (s.ksValid = true → s.keyReady) ∧ s.latchConsistent ∧ ∀ r ∈ s.outputs, r.clean

/-- CORE is configured for messages (60_exceptions.md R155): no fault, a key of at least BLOCK_BYTES, a transform. -/
abbrev State.ready (s : State) : Prop :=
  s.inv ∧ s.fault = 0#4 ∧ s.ksValid = true ∧ s.itValid = true ∧ Config.blockBytes ≤ s.keyLen.toNat

/-- The per-message operations (60_exceptions.md R155). -/
def perMessage : Instr → Bool
  | .ksLoad _ => false
  | .ksSubkey _ _ _ => false
  | .itConfig _ _ => false
  | .itOffset _ _ => false
  | .bcApply _ _ => true
  | .ftNew _ => true
  | .ftGetIndex => true
  | .ftSetIndex _ => true
  | .ftGetTag => true
  | .ftSetTag _ => true
  | .ftTagBits => true
  | .frNew => true
  | .frAsBytes => true
  | .frLoadBytes _ => true
  | .frCipher => true
  | .frSetPayload i _ => decide (i.toNat < Config.payloadWords)
  | .frGetPayload i => decide (i.toNat < Config.payloadWords)

/-- The operations that change no state when they complete (20_memory.md R48). -/
def readsOnly : Instr → Bool
  | .ksLoad _ => false
  | .ksSubkey _ _ _ => true
  | .itConfig _ _ => false
  | .itOffset _ _ => true
  | .bcApply _ _ => true
  | .ftNew _ => false
  | .ftGetIndex => true
  | .ftSetIndex _ => false
  | .ftGetTag => true
  | .ftSetTag _ => false
  | .ftTagBits => true
  | .frNew => false
  | .frAsBytes => true
  | .frLoadBytes _ => false
  | .frCipher => false
  | .frSetPayload _ _ => false
  | .frGetPayload _ => true

/-- The statuses an operation may answer (60_exceptions.md R140 to R148, R151 to R153). -/
def allowedStatuses : Instr → List Status
  | .ksLoad _ => [.ok, .faulted, .keyLocked, .invalidKeyLength]
  | .ksSubkey _ _ _ => [.ok, .faulted, .notConfigured, .misalignedAccess, .subkeyTooLarge, .offsetOutOfRange]
  | .itConfig _ _ => [.ok, .faulted, .badOperand]
  | .itOffset _ _ => [.ok, .faulted, .notConfigured, .noValidOffset]
  | .bcApply _ _ => [.ok, .faulted, .notConfigured, .noValidOffset]
  | .ftNew _ => [.ok, .faulted]
  | .ftGetIndex => [.ok, .faulted]
  | .ftSetIndex _ => [.ok, .faulted]
  | .ftGetTag => [.ok, .faulted]
  | .ftSetTag _ => [.ok, .faulted]
  | .ftTagBits => [.ok, .faulted]
  | .frNew => [.ok, .faulted]
  | .frAsBytes => [.ok, .faulted]
  | .frLoadBytes _ => [.ok, .faulted]
  | .frCipher => [.ok, .faulted, .notConfigured, .noValidOffset]
  | .frSetPayload _ _ => [.ok, .faulted, .badOperand]
  | .frGetPayload _ => [.ok, .faulted, .badOperand]

/-- Two states that differ at most in what has no value: KEY and KEY_LEN while KS_VALID is 0, key bytes at and above
KEY_LEN, MASK while IT_VALID is 0 (10_state.md R24, R36). -/
abbrev State.sameVisible (s t : State) : Prop :=
  s.fw = t.fw ∧ s.ksValid = t.ksValid ∧ s.hashSel = t.hashSel ∧ s.itValid = t.itValid ∧ s.fault = t.fault ∧
    s.inputs = t.inputs ∧ s.outputs = t.outputs ∧
    (s.ksValid = true → s.keyLen = t.keyLen ∧ ∀ a < s.keyLen.toNat, readByte s.key a = readByte t.key a) ∧
    (s.itValid = true → s.mask = t.mask)

/-- Two outcomes that a host cannot tell apart. -/
def sameVisibleOutcome : Host.Outcome State Fault Refusal → Host.Outcome State Fault Refusal → Prop
  | .next s, .next t => s.sameVisible t
  | .fault f, .fault g => f = g
  | .refused q, .refused r => q = r
  | _, _ => False

end Sys2Proof.Machine
end

