-- ==== Sys2Proof/Certificates/Slice0/Obligations.lean ====
section
/-! DEFINITION. The statements about the model of CORE, each citing the rules of spec/ it formalises or rests on. A next
state is written as one record: every field that is not named is unchanged, key memory included. -/

namespace Sys2Proof.Machine

/-- The state after an operation that answers `S` with the result `r` and changes no item of 10_state.md R20. -/
abbrev State.answered (s : State) (S : Status) (r : Result) : State := { s with outputs := s.outputs ++ [⟨S, r⟩] }

/-- The state after a fatal status with the given code: the latch is set and nothing else is changed (60_exceptions.md
R150). -/
abbrev State.latched (s : State) (S : Status) (code : BitVec 4) : State :=
  { s with fault := code, outputs := s.outputs ++ [⟨S, .noResult⟩] }

/-- No fault is latched and both valid flags are 1 (60_exceptions.md R152). -/
abbrev State.configured (s : State) : Prop := s.fault = 0#4 ∧ s.ksValid = true ∧ s.itValid = true

/-- The masked and hashed index (41_index_transform.md R91, R92). -/
abbrev State.hashedIndex (s : State) (index : Word) : Word :=
  match s.hashSel with
  | .identity => index ^^^ s.mask
  | .custom => Config.hashCustom (index ^^^ s.mask)

/-- The word offset of the cipher's window of 7 words: the hashed index modulo the number of valid starting positions
(41_index_transform.md R92). -/
abbrev State.cipherOffset (s : State) (index : Word) : Nat :=
  (s.hashedIndex index).toNat % (s.keyLen.toNat / 4 - 7 + 1)

/-- Which operations use ARG0 (30_encoding.md R66), by operation code. -/
def usesArg0 (op : Nat) : Bool := op ∈ [0x01, 0x02, 0x03, 0x04, 0x05, 0x06, 0x08, 0x0A, 0x10, 0x11]

/-- Which operations use ARG1 (30_encoding.md R66), by operation code. -/
def usesArg1 (op : Nat) : Bool := op ∈ [0x02, 0x03, 0x04, 0x10]

/-- Which bytes of the data port an operation samples: how many, by operation code (30_encoding.md R66, R70). -/
def samples (op : Nat) (arg0 : Word) : Nat :=
  if op = 0x01 then arg0.toNat else if op = 0x05 then 28 else if op = 0x0E then 32 else 0

/-- The next state of an outcome changed by `f`; a fault or a refusal is kept. -/
def mapNext (f : State → State) : Host.Outcome State Fault Refusal → Host.Outcome State Fault Refusal
  | .next s => .next (f s)
  | .fault e => .fault e
  | .refused e => .refused e

end Sys2Proof.Machine

open Sys2Proof Sys2Proof.Machine

/-! ## Encoding -/

/-- Decoding the encoding of a well-formed instruction gives it back, for every operation and every operand value
(30_encoding.md R66, R68). -/
def Obligations.DecodeOfEncodeIsTheInstruction : Prop :=
  ∀ i : Instr, i.wellFormed = true → decode (encode i) = .ok i

/-- The decoder accepts a command exactly when its CTRL matches a row of the opcode table, and then the instruction it
gives has that row's operation code; no CTRL matches two rows (30_encoding.md R68). -/
def Obligations.DecodeAcceptsExactlyTheOpcodeTable : Prop :=
  (∀ c : Command, (∃ i, decode c = .ok i) ↔ ∃ r ∈ opcodeTable, c.matchesRow r = true) ∧
  (∀ (c : Command) (i : Instr) (r : OpcodeRow), decode c = .ok i → r ∈ opcodeTable → c.matchesRow r = true →
    r.pattern.toNat = i.opCode.toNat) ∧
  (∀ (c : Command) (r q : OpcodeRow), r ∈ opcodeTable → q ∈ opcodeTable → c.matchesRow r = true →
    c.matchesRow q = true → r = q)

/-- Whatever a command holds, what it decodes to is well formed (30_encoding.md R66, R70). -/
def Obligations.DecodedInstructionsAreWellFormed : Prop :=
  ∀ (c : Command) (i : Instr), decode c = .ok i → i.wellFormed = true

/-- An unused ARG0 or ARG1 is ignored whatever it holds, and an unused data port is not sampled (30_encoding.md R66).
That KS_LOAD, BC_APPLY and FR_LOAD_BYTES ignore surplus bytes on the data port they do sample is the model's choice
(log 6): R70 says that a wrong length cannot be expressed. -/
def Obligations.UnusedOperandsAreIgnored : Prop :=
  ∀ c d : Command, c.ctrl = d.ctrl →
    (usesArg0 (c.ctrl.toNat % 32) = true → c.arg0 = d.arg0) →
    (usesArg1 (c.ctrl.toNat % 32) = true → c.arg1 = d.arg1) →
    (let n := samples (c.ctrl.toNat % 32) c.arg0
     n ≤ c.data.length ∧ n ≤ d.data.length ∧ c.data.take n = d.data.take n) →
    decode c = decode d

/-- Command words written out bit by bit in the spec decode to the operations they stand for (30_encoding.md R68, R73). -/
def Obligations.WordsOfTheSpecDecode : Prop :=
  decode ⟨0x00000042, 0x00000001, 0x00000001, []⟩ = .ok (.ksSubkey .w32 1 1) ∧
  decode ⟨0x00000003, 0xDEADBEEF, 0x00000000, []⟩ = .ok (.itConfig 0xDEADBEEF 0) ∧
  decode ⟨0x00000008, 0x00000005, 0x00000000, []⟩ = .ok (.ftSetIndex 5) ∧
  decode ⟨0x0000000F, 0x00000000, 0x00000000, []⟩ = .ok .frCipher ∧
  decode ⟨0x00000010, 0x00000006, 0xCAFEBABE, []⟩ = .ok (.frSetPayload 6 0xCAFEBABE) ∧
  decode ⟨0x00000000, 0x00000000, 0x00000000, []⟩ = .error .reservedOperation

/-! ## The step, reset and idling -/

/-- A step whose next input is a command that decodes to `i` is `exec i`, with that input taken off the queue
(00_scope.md R7, R8). -/
def Obligations.StepRunsTheDecodedCommand : Prop :=
  ∀ (s : State) (c : Command) (rest : List Input) (i : Instr), s.inputs = .command c :: rest → decode c = .ok i →
    step s = exec i { s with inputs := rest }

/-- IllegalCommand is answered to a command word that selects no operation; the operation does nothing and no fault is
latched (60_exceptions.md R149). -/
def Obligations.IllegalCommandDoesNothing : Prop :=
  ∀ (s : State) (c : Command) (rest : List Input) (e : DecodeError), s.inputs = .command c :: rest →
    decode c = .error e → s.fault = 0#4 →
    step s = .next ({ s with inputs := rest }.answered .illegalCommand .noResult)

/-- The illegal encodings are exactly `op` 0x00, `op` 0x12 to 0x1F, any reserved bit of CTRL set, and `wsel` not 0 with
an `op` other than 0x02; all are answered alike with IllegalCommand, no state change and no fault latched
(30_encoding.md R69, R64). -/
def Obligations.IllegalEncodingsAreTheReservedOnes : Prop :=
  (∀ c : Command, (∃ e, decode c = .error e) ↔
    (c.ctrl.toNat % 32 = 0 ∨ 0x12 ≤ c.ctrl.toNat % 32 ∨ c.ctrl.toNat / 128 ≠ 0 ∨
      (c.ctrl.toNat / 32 % 4 ≠ 0 ∧ c.ctrl.toNat % 32 ≠ 2))) ∧
  (∀ (s : State) (c : Command) (rest : List Input), s.inputs = .command c :: rest → s.fault = 0#4 →
    (c.ctrl.toNat % 32 = 0 ∨ 0x12 ≤ c.ctrl.toNat % 32 ∨ c.ctrl.toNat / 128 ≠ 0 ∨
      (c.ctrl.toNat / 32 % 4 ≠ 0 ∧ c.ctrl.toNat % 32 ≠ 2)) →
    step s = .next ({ s with inputs := rest }.answered .illegalCommand .noResult))

/-- While FAULT is not 0 every command, an illegal one included, is answered Faulted and does nothing, and FAULT keeps
its code (60_exceptions.md R146, R152). -/
def Obligations.LatchedFaultAnswersEveryCommand : Prop :=
  ∀ (s : State) (c : Command) (rest : List Input), s.inputs = .command c :: rest → s.fault ≠ 0#4 →
    step s = .next ({ s with inputs := rest }.answered .faulted .noResult)

/-- NotConfigured is answered, and nothing is done, when an operation needs a valid flag that is 0: KS_SUBKEY needs
KS_VALID; IT_OFFSET, BC_APPLY and FR_CIPHER need KS_VALID and IT_VALID (60_exceptions.md R147). -/
def Obligations.UnconfiguredOperationsAreRefused : Prop :=
  (∀ (s : State) (w : WordWidth) (off len : Word), s.fault = 0#4 → s.ksValid = false →
    exec (.ksSubkey w off len) s = .next (s.answered .notConfigured .noResult)) ∧
  (∀ (s : State) (index len : Word) (block : Vector Byte 28), s.fault = 0#4 → s.ksValid = false ∨ s.itValid = false →
    exec (.itOffset index len) s = .next (s.answered .notConfigured .noResult) ∧
    exec (.bcApply index block) s = .next (s.answered .notConfigured .noResult) ∧
    exec .frCipher s = .next (s.answered .notConfigured .noResult))

/-- A reset from any state, a faulted one included, gives every item its reset value: the frame 0, the flags, HASH_SEL
and FAULT 0, and no key byte a value (70_reset_and_hazards.md R165). That the host's remaining inputs and the answers
given so far are kept, and that KEY_LEN and MASK take the values of State.reset, is the model's choice (log 1, log 2,
log 4). -/
def Obligations.ResetInputGivesResetValues : Prop :=
  ∀ (s : State) (rest : List Input), s.inputs = .reset :: rest →
    ∃ t, step s = .next t ∧ (∀ i : Fin 8, t.fw[i] = 0) ∧ t.ksValid = false ∧ t.itValid = false ∧
      t.hashSel = .identity ∧ t.fault = 0#4 ∧ (∀ a, readCell t.key a = none) ∧
      t.keyLen = State.reset.keyLen ∧ t.mask = State.reset.mask ∧ t.inputs = rest ∧ t.outputs = s.outputs

/-- The reset state: frame 0, flags 0, Identity, no fault, status outputs 0 0 0, and no key byte with a value
(10_state.md R36). -/
def Obligations.ResetStateHoldsTheResetValues : Prop :=
  (∀ i : Fin 8, State.reset.fw[i] = 0) ∧ State.reset.ksValid = false ∧ State.reset.itValid = false ∧
    State.reset.hashSel = .identity ∧ State.reset.fault = 0#4 ∧ (∀ a, readCell State.reset.key a = none) ∧
    State.reset.faultO = 0#4 ∧ State.reset.ksValidO = false ∧ State.reset.itValidO = false

/-- The status outputs copy FAULT, KS_VALID and IT_VALID after every step (10_state.md R31). -/
def Obligations.StatusOutputsCopyTheState : Prop :=
  ∀ s : State, s.faultO = s.fault ∧ s.ksValidO = s.ksValid ∧ s.itValidO = s.itValid

/-- With nothing issued a step changes nothing: CORE is idle and keeps all its state (60_exceptions.md R161; that idling
is a step is the model's choice, log 5). -/
def Obligations.IdleStepKeepsTheState : Prop :=
  ∀ s : State, s.inputs = [] → step s = .next s

/-! ## Whole-machine rules -/

/-- The invariant holds at reset (10_state.md R37). -/
def Obligations.ResetMeetsTheInvariant : Prop := State.reset.inv

/-- Every step keeps the invariant, whatever the host issues: key memory canonical, usable key material while KS_VALID
is 1, a legal fault latch, no data beside a failure (10_state.md R37 a, 60_exceptions.md R163). -/
def Obligations.StepKeepsTheInvariant : Prop :=
  ∀ s t : State, s.inv → step s = .next t → t.inv

/-- From a state that meets the invariant every step gives a next state: neither a fault nor a refusal
(70_reset_and_hazards.md R176, 20_memory.md R46). -/
def Obligations.StepNeverStops : Prop :=
  ∀ s : State, s.inv → ∃ t, step s = .next t

/-- In every state whatever, no operation reads key memory at or above KEY_LEN (20_memory.md R46). -/
def Obligations.KeyReadsStayBelowKeyLen : Prop :=
  ∀ (i : Instr) (s : State) (a n : Nat), exec i s ≠ .fault (.keyReadBeyondLength a n)

/-- KEY and KEY_LEN change only by reset or by a KS_LOAD issued while KS_VALID is 0: once a KS_LOAD has completed no
operation writes them until reset (40_keystore.md R81). -/
def Obligations.KeyChangesOnlyByFirstLoadOrReset : Prop :=
  ∀ s t : State, step s = .next t → t.key ≠ s.key ∨ t.keyLen ≠ s.keyLen →
    (∃ rest, s.inputs = .reset :: rest) ∨
    (s.ksValid = false ∧ ∃ c rest kdata, s.inputs = .command c :: rest ∧ decode c = .ok (.ksLoad kdata))

/-- What no command undoes: a latched fault keeps its code and freezes every item of state, and the valid flags never
fall; only reset does (10_state.md R37 c, d, e; 60_exceptions.md R157). -/
def Obligations.OnlyResetClearsFaultAndFlags : Prop :=
  ∀ (s t : State) (c : Command) (rest : List Input), s.inputs = .command c :: rest → step s = .next t →
    (s.ksValid = true → t.ksValid = true) ∧ (s.itValid = true → t.itValid = true) ∧
    (s.fault ≠ 0#4 → t = { s with inputs := rest, outputs := t.outputs })

/-- Fault entry and precise failures: every operation gives one answer; an answer other than OK carries no result and
changes nothing but, for a fatal status, FAULT, which takes the status's code; an OK leaves FAULT as it was
(60_exceptions.md R150, R154). -/
def Obligations.EveryFailureIsPrecise : Prop :=
  ∀ (i : Instr) (s t : State), exec i s = .next t →
    ∃ r : Response, t.outputs = s.outputs ++ [r] ∧ t.inputs = s.inputs ∧
      (r.status = .ok → t.fault = s.fault) ∧
      (r.status ≠ .ok → r.result = .noResult ∧
        (1 ≤ r.status.code.toNat ∧ r.status.code.toNat ≤ 5 → s.fault = 0#4) ∧
        t = { s with
              fault := if 1 ≤ r.status.code.toNat ∧ r.status.code.toNat ≤ 5 then r.status.code else s.fault
              outputs := s.outputs ++ [r] })

/-- Each status comes only from the operations that may raise it; on the cipher path neither SubkeyTooLarge nor
OffsetOutOfRange is ever seen (60_exceptions.md R141 to R148, R151, R153; 41_index_transform.md R95). -/
def Obligations.StatusesComeOnlyFromTheirOperations : Prop :=
  ∀ (i : Instr) (s t : State), exec i s = .next t →
    ∃ r : Response, t.outputs = s.outputs ++ [r] ∧ r.status ∈ allowedStatuses i

/-- The operations that only read change no state when they complete (20_memory.md R48). -/
def Obligations.ReadingOperationsChangeNothing : Prop :=
  ∀ (i : Instr) (s t : State) (r : Result), readsOnly i = true → exec i s = .next t →
    t.outputs = s.outputs ++ [⟨.ok, r⟩] → t = s.answered .ok r

/-- KS_LOAD, KS_SUBKEY, IT_CONFIG, IT_OFFSET, BC_APPLY and FT_TAG_BITS neither read nor write the frame registers: with
another frame they do the same and leave that frame as it is (10_state.md R21). -/
def Obligations.FrameIsUntouchedByOtherOperations : Prop :=
  ∀ (i : Instr) (s : State) (f : Vector Word 8),
    (match i with
      | .ksLoad _ => True
      | .ksSubkey _ _ _ => True
      | .itConfig _ _ => True
      | .itOffset _ _ => True
      | .bcApply _ _ => True
      | .ftTagBits => True
      | _ => False) →
    exec i { s with fw := f } = mapNext (fun t => { t with fw := f }) (exec i s)

/-- Once configured with a key of at least BLOCK_BYTES, CORE answers OK to every per-message operation, and it stays
configured (60_exceptions.md R155). -/
def Obligations.PerMessageOperationsCannotFail : Prop :=
  ∀ (i : Instr) (s : State), s.ready → perMessage i = true →
    ∃ t r, exec i s = .next t ∧ t.outputs = s.outputs ++ [⟨.ok, r⟩] ∧ t.ready

/-- For ever: a configured CORE answers OK to every command of any list of per-message operations the host issues
(60_exceptions.md R155, 70_reset_and_hazards.md R177). -/
def Obligations.ConfiguredCoreAnswersEveryMessageList : Prop :=
  ∀ (is : List Instr) (s : State), s.ready → s.inputs = commandsOf is → (∀ i ∈ is, perMessage i = true) →
    ∃ t rs, core.run is.length s = .next t ∧ t.outputs = s.outputs ++ rs ∧ rs.length = is.length ∧
      (∀ r ∈ rs, r.status = .ok) ∧ t.inputs = [] ∧ t.ready

/-- What has no value is never observed: two states that differ only in KEY and KEY_LEN while KS_VALID is 0, in key
bytes at and above KEY_LEN, or in MASK while IT_VALID is 0, take steps with equal answers to states that again differ
only so (10_state.md R24, R36; 70_reset_and_hazards.md R180). The values the model names for them at reset (log 1,
log 2) can therefore never be seen. -/
def Obligations.UnspecifiedValuesAreNeverObserved : Prop :=
  ∀ s t : State, s.sameVisible t → sameVisibleOutcome (step s) (step t)

/-- The static constraints (a) to (h) hold of the parameters, whichever value KEY_ALIGN has (00_scope.md R6). -/
def Obligations.ParametersMeetTheStaticConstraints : Prop := Config.staticConstraints

/-! ## KeyStore -/

/-- KS_LOAD (40_keystore.md R80): while a key is loaded, KeyLocked and nothing changes; a length that is no multiple of 4
or exceeds 53280 is InvalidKeyLength, latched, and no key byte is written; otherwise the blob is stored from byte 0,
KEY_LEN is its length, KS_VALID is 1, and nothing else changes. -/
def Obligations.KsLoadStoresTheBlobOnce : Prop :=
  ∀ (s : State) (kdata : List Byte), s.fault = 0#4 →
    (s.ksValid = true → exec (.ksLoad kdata) s = .next (s.answered .keyLocked .noResult)) ∧
    (s.ksValid = false → kdata.length % 4 ≠ 0 ∨ 53280 < kdata.length →
      exec (.ksLoad kdata) s = .next (s.latched .invalidKeyLength 1)) ∧
    (s.ksValid = false → kdata.length % 4 = 0 → kdata.length ≤ 53280 →
      ∃ key : Memory, ∃ n : Word, n.toNat = kdata.length ∧
        exec (.ksLoad kdata) s =
          .next ({ s with key := key, keyLen := n, ksValid := true }.answered .ok .noResult) ∧
        (∀ (a : Nat) (h : a < kdata.length), readByte key a = .ok kdata[a]) ∧
        (∀ a, kdata.length ≤ a → readByte key a = readByte s.key a) ∧
        (s.key.wf → key.wf))

/-- KS_SUBKEY (40_keystore.md R82): MisalignedAccess, then SubkeyTooLarge, then OffsetOutOfRange, each latched and
nothing read; otherwise the L words from `word_offset` on, byte k of word j being key byte (word_offset + j) * (W/8) + k,
and no state changes. The offset is never reduced and the sum never wraps. -/
def Obligations.KsSubkeyReturnsTheWindow : Prop :=
  ∀ (s : State) (w : WordWidth) (off len : Word), s.fault = 0#4 → s.ksValid = true → s.keyReady →
    if Config.keyAlign < w.bits / 8 then
      exec (.ksSubkey w off len) s = .next (s.latched .misalignedAccess 3)
    else if s.keyLen.toNat / (w.bits / 8) < len.toNat then
      exec (.ksSubkey w off len) s = .next (s.latched .subkeyTooLarge 2)
    else if s.keyLen.toNat / (w.bits / 8) < off.toNat + len.toNat then
      exec (.ksSubkey w off len) s = .next (s.latched .offsetOutOfRange 5)
    else
      ∃ ws : List (BitVec w.bits), exec (.ksSubkey w off len) s = .next (s.answered .ok (.words w.bits ws)) ∧
        ws.length = len.toNat ∧
        ∀ (j : Nat) (h : j < ws.length), ∀ k < w.bits / 8,
          readByte s.key ((off.toNat + j) * (w.bits / 8) + k) = .ok ((ws[j]).extractLsb' (8 * k) 8)

/-- Which widths are served (40_keystore.md R83): with KEY_ALIGN = 4 the 64-bit view raises MisalignedAccess for every
operand, with KEY_ALIGN = 8 it never does, and the 8-, 16- and 32-bit views never do. -/
def Obligations.ServedWidthsFollowKeyAlign : Prop :=
  ((Config.keyAlign = 4 ∧ ∀ (s : State) (off len : Word), s.fault = 0#4 → s.ksValid = true →
      exec (.ksSubkey .w64 off len) s = .next (s.latched .misalignedAccess 3)) ∨
    (Config.keyAlign = 8 ∧ ∀ (s : State) (off len : Word),
      exec (.ksSubkey .w64 off len) s ≠ .next (s.latched .misalignedAccess 3))) ∧
  ∀ (s : State) (w : WordWidth) (off len : Word), w ≠ .w64 →
    exec (.ksSubkey w off len) s ≠ .next (s.latched .misalignedAccess 3)

/-! ## IndexTransform -/

/-- IT_CONFIG (41_index_transform.md R90): `hash_sel` 0 selects Identity and 1 Custom, MASK is the whole operand and
IT_VALID becomes 1; any other `hash_sel` is BadOperand and nothing is written. -/
def Obligations.ItConfigSetsMaskAndHash : Prop :=
  ∀ (s : State) (mask sel : Word), s.fault = 0#4 →
    (sel.toNat = 0 → exec (.itConfig mask sel) s =
      .next ({ s with mask := mask, hashSel := .identity, itValid := true }.answered .ok .noResult)) ∧
    (sel.toNat = 1 → exec (.itConfig mask sel) s =
      .next ({ s with mask := mask, hashSel := .custom, itValid := true }.answered .ok .noResult)) ∧
    (1 < sel.toNat → exec (.itConfig mask sel) s = .next (s.answered .badOperand .noResult))

/-- IT_OFFSET (41_index_transform.md R92, R93): with L above `total_words` NoValidOffset is latched; otherwise RESULT is
the hashed index, read unsigned, modulo `total_words - L + 1`, and no state changes. All 32 bits of the index take
part. -/
def Obligations.ItOffsetReducesTheHashedIndex : Prop :=
  ∀ (s : State) (index len : Word), s.configured →
    (s.keyLen.toNat / 4 < len.toNat → exec (.itOffset index len) s = .next (s.latched .noValidOffset 4)) ∧
    (len.toNat ≤ s.keyLen.toNat / 4 → ∃ v : Word,
      v.toNat = (s.hashedIndex index).toNat % (s.keyLen.toNat / 4 - len.toNat + 1) ∧
      exec (.itOffset index len) s = .next (s.answered .ok (.scalar v)))

/-- The offset IT_OFFSET gives is always a legal `word_offset` for a KS_SUBKEY of the same length at the configured
width: the window it selects is in bounds (20_memory.md R50, 41_index_transform.md R92). -/
def Obligations.OffsetsSelectWindowsInBounds : Prop :=
  ∀ (s t : State) (index len off : Word), s.inv → exec (.itOffset index len) s = .next t →
    t.outputs = s.outputs ++ [⟨.ok, .scalar off⟩] →
    off.toNat + len.toNat ≤ s.keyLen.toNat / 4 ∧
    ∃ u ws, exec (.ksSubkey .w32 off len) t = .next u ∧ u.outputs = t.outputs ++ [⟨.ok, .words 32 ws⟩] ∧
      ws.length = len.toNat

/-- Under the identity hash and any mask, sweeping the index over 0 to 2^b - 1, where 2^b is at least `max_index`, visits
every offset below `max_index` (41_index_transform.md R94 b). -/
def Obligations.IdentitySweepVisitsEveryOffset : Prop :=
  ∀ (s : State) (len : Word) (b off : Nat), s.configured → s.hashSel = .identity →
    len.toNat ≤ s.keyLen.toNat / 4 → b ≤ 32 → s.keyLen.toNat / 4 - len.toNat + 1 ≤ 2 ^ b →
    off < s.keyLen.toNat / 4 - len.toNat + 1 →
    ∃ (index v : Word), index.toNat < 2 ^ b ∧ v.toNat = off ∧
      exec (.itOffset index len) s = .next (s.answered .ok (.scalar v))

/-! ## BlockCipher -/

/-- BC_APPLY on bytes (42_block_cipher.md R101, R103): with a key of at least 28 bytes the result is 28 bytes, byte j
being block byte j XOR key byte 4 * off + j, where off is the offset of the whole 32-bit index; no state changes. -/
def Obligations.BcApplyXorsTheKeyBytes : Prop :=
  ∀ (s : State) (index : Word) (block : Vector Byte 28), s.configured → s.keyReady → 28 ≤ s.keyLen.toNat →
    ∃ out : Vector Byte 28, exec (.bcApply index block) s = .next (s.answered .ok (.bytes out.toList)) ∧
      ∀ j : Fin 28, ∃ k : Byte, readByte s.key (4 * s.cipherOffset index + j) = .ok k ∧ out[j] = block[j] ^^^ k

/-- NoValidOffset: with a key of fewer than 7 words BC_APPLY and FR_CIPHER, and with L above `total_words` IT_OFFSET,
raise it; it is latched and nothing else changes (60_exceptions.md R144). -/
def Obligations.ShortKeysHaveNoValidOffset : Prop :=
  ∀ s : State, s.configured →
    (s.keyLen.toNat / 4 < 7 → exec .frCipher s = .next (s.latched .noValidOffset 4) ∧
      ∀ (index : Word) (block : Vector Byte 28),
        exec (.bcApply index block) s = .next (s.latched .noValidOffset 4)) ∧
    ∀ index len : Word, s.keyLen.toNat / 4 < len.toNat →
      exec (.itOffset index len) s = .next (s.latched .noValidOffset 4)

/-- Involution (42_block_cipher.md R102): in every state in which BC_APPLY does not raise, applying it with the same
index to what it returned gives the block back. -/
def Obligations.BcApplyIsAnInvolution : Prop :=
  ∀ (s t : State) (index : Word) (block out : Vector Byte 28), exec (.bcApply index block) s = .next t →
    t.outputs = s.outputs ++ [⟨.ok, .bytes out.toList⟩] →
    exec (.bcApply index out) t = .next (t.answered .ok (.bytes block.toList))

/-! ## FrameTag -/

/-- FT_NEW (43_frame_tag.md R111): TAGW is the index's low 31 bits, the tag bit 0; nothing else changes. -/
def Obligations.FtNewTruncatesTheIndex : Prop :=
  ∀ (s : State) (index : Word), s.fault = 0#4 → ∃ v : Word, v.toNat = index.toNat % 2 ^ 31 ∧
    exec (.ftNew index) s = .next ({ s with fw := s.fw.set 0 v }.answered .ok .noResult)

/-- FT_GET_INDEX (43_frame_tag.md R112): RESULT is the low 31 bits of TAGW; no state changes. -/
def Obligations.FtGetIndexReadsTheIndexField : Prop :=
  ∀ s : State, s.fault = 0#4 → ∃ v : Word, v.toNat = s.fw[0].toNat % 2 ^ 31 ∧
    exec .ftGetIndex s = .next (s.answered .ok (.scalar v))

/-- FT_SET_INDEX (43_frame_tag.md R113): the low 31 bits of TAGW are the operand's, the tag bit is kept; nothing else
changes. -/
def Obligations.FtSetIndexKeepsTheTag : Prop :=
  ∀ (s : State) (index : Word), s.fault = 0#4 →
    ∃ v : Word, v.toNat = s.fw[0].toNat / 2 ^ 31 * 2 ^ 31 + index.toNat % 2 ^ 31 ∧
      exec (.ftSetIndex index) s = .next ({ s with fw := s.fw.set 0 v }.answered .ok .noResult)

/-- FT_GET_TAG (43_frame_tag.md R114): RESULT is bit 31 of TAGW, shifted down; no state changes. -/
def Obligations.FtGetTagReadsTheTagField : Prop :=
  ∀ s : State, s.fault = 0#4 → ∃ v : Word, v.toNat = s.fw[0].toNat / 2 ^ 31 ∧
    exec .ftGetTag s = .next (s.answered .ok (.scalar v))

/-- FT_SET_TAG (43_frame_tag.md R115): bit 31 of TAGW is the operand's bit 0, the index field is kept; nothing else
changes. -/
def Obligations.FtSetTagKeepsTheIndex : Prop :=
  ∀ (s : State) (tag : Word), s.fault = 0#4 →
    ∃ v : Word, v.toNat = tag.toNat % 2 * 2 ^ 31 + s.fw[0].toNat % 2 ^ 31 ∧
      exec (.ftSetTag tag) s = .next ({ s with fw := s.fw.set 0 v }.answered .ok .noResult)

/-- FT_TAG_BITS (43_frame_tag.md R116): RESULT is TAG_BITS = 1 in every state without a latched fault; no state
changes. -/
def Obligations.FtTagBitsIsOne : Prop :=
  ∀ s : State, s.fault = 0#4 → exec .ftTagBits s = .next (s.answered .ok (.scalar 1))

/-- Field isolation (43_frame_tag.md R117). -/
def Obligations.TagWordFieldsAreIsolated : Prop :=
  ∀ t a : Word,
    (ftGetTag (ftSetTag t a)).toNat = a.toNat % 2 ^ Config.tagBits ∧
    (ftGetIndex (ftSetIndex t a)).toNat = a.toNat % 2 ^ Config.indexBits ∧
    (a.toNat < 2 ^ 31 → ftGetIndex (ftSetIndex t a) = a) ∧
    ftGetTag (ftSetIndex t a) = ftGetTag t ∧
    ftGetIndex (ftSetTag t a) = ftGetIndex t ∧
    ftGetTag (ftNew a) = 0 ∧
    (ftGetIndex (ftNew a)).toNat = a.toNat % 2 ^ Config.indexBits ∧
    t.toNat = (ftGetTag t).toNat * 2 ^ Config.indexBits + (ftGetIndex t).toNat

/-! ## Frame -/

/-- FR_NEW (44_frame.md R125): all eight frame registers become 0; nothing else changes. -/
def Obligations.FrNewZeroesTheFrame : Prop :=
  ∀ s : State, s.fault = 0#4 →
    exec .frNew s = .next ({ s with fw := Vector.replicate 8 0 }.answered .ok .noResult)

/-- FR_AS_BYTES (44_frame.md R126): 32 bytes, byte 4 i + k being bits 8 k + 7 to 8 k of FW[i]; no state changes. -/
def Obligations.FrAsBytesReturnsTheFrame : Prop :=
  ∀ s : State, s.fault = 0#4 → ∃ out : Vector Byte 32,
    exec .frAsBytes s = .next (s.answered .ok (.bytes out.toList)) ∧
    ∀ (i k : Nat) (hi : i < 8) (hk : k < 4), out[4 * i + k] = (s.fw[i]).extractLsb' (8 * k) 8

/-- FR_LOAD_BYTES (44_frame.md R127): bits 8 k + 7 to 8 k of FW[i] become byte 4 i + k; nothing else changes. -/
def Obligations.FrLoadBytesWritesTheFrame : Prop :=
  ∀ (s : State) (wdata : Vector Byte 32), s.fault = 0#4 → ∃ f : Vector Word 8,
    exec (.frLoadBytes wdata) s = .next ({ s with fw := f }.answered .ok .noResult) ∧
    ∀ (i k : Nat) (hi : i < 8) (hk : k < 4), (f[i]).extractLsb' (8 * k) 8 = wdata[4 * i + k]

/-- FR_LOAD_BYTES then FR_AS_BYTES returns the bytes loaded, and loading what FR_AS_BYTES returned changes no item of
state (44_frame.md R127, corner cases). -/
def Obligations.FrameBytesRoundTrip : Prop :=
  (∀ (s t : State) (wdata : Vector Byte 32), s.fault = 0#4 → exec (.frLoadBytes wdata) s = .next t →
    exec .frAsBytes t = .next (t.answered .ok (.bytes wdata.toList))) ∧
  (∀ (s t : State) (out : Vector Byte 32), s.fault = 0#4 → exec .frAsBytes s = .next t →
    t.outputs = s.outputs ++ [⟨.ok, .bytes out.toList⟩] →
    exec (.frLoadBytes out) t = .next (t.answered .ok .noResult))

/-- FR_SET_PAYLOAD (44_frame.md R128): payload word i is FW[1 + i]; i of 7 or more is BadOperand and nothing is written;
the tag word cannot be reached. -/
def Obligations.FrSetPayloadWritesOneWord : Prop :=
  ∀ (s : State) (i value : Word), s.fault = 0#4 →
    (∀ h : i.toNat < 7, exec (.frSetPayload i value) s =
      .next ({ s with fw := s.fw.set (1 + i.toNat) value }.answered .ok .noResult)) ∧
    (7 ≤ i.toNat → exec (.frSetPayload i value) s = .next (s.answered .badOperand .noResult))

/-- FR_GET_PAYLOAD (44_frame.md R129): RESULT is FW[1 + i]; i of 7 or more is BadOperand; no state changes. -/
def Obligations.FrGetPayloadReadsOneWord : Prop :=
  ∀ (s : State) (i : Word), s.fault = 0#4 →
    (∀ h : i.toNat < 7, exec (.frGetPayload i) s = .next (s.answered .ok (.scalar s.fw[1 + i.toNat]))) ∧
    (7 ≤ i.toNat → exec (.frGetPayload i) s = .next (s.answered .badOperand .noResult))

/-- FR_CIPHER (44_frame.md R130, R132; 42_block_cipher.md R104): with a key of at least 28 bytes each payload word i is
XORed with key word off + i, byte k of that word being key byte 4 (off + i) + k, where off is the offset of the frame's
own 31-bit index; the tag word and all other state are unchanged. -/
def Obligations.FrCipherXorsThePayload : Prop :=
  ∀ s : State, s.configured → s.keyReady → 28 ≤ s.keyLen.toNat → ∃ f : Vector Word 8,
    exec .frCipher s = .next ({ s with fw := f }.answered .ok .noResult) ∧ f[0] = s.fw[0] ∧
    ∀ (i k : Nat) (hi : i < 7) (_ : k < 4), ∃ b : Byte,
      readByte s.key (4 * (s.cipherOffset (BitVec.ofNat 32 (s.fw[0].toNat % 2 ^ 31)) + i) + k) = .ok b ∧
      (f[1 + i]).extractLsb' (8 * k) 8 = (s.fw[1 + i]).extractLsb' (8 * k) 8 ^^^ b

/-- Frame involution (44_frame.md R131): in every state, if FR_CIPHER completes then a second FR_CIPHER completes and
gives the state back exactly, but for the two answers. -/
def Obligations.FrCipherIsAnInvolution : Prop :=
  ∀ s t : State, exec .frCipher s = .next t → t.outputs = s.outputs ++ [⟨.ok, .noResult⟩] →
    exec .frCipher t = .next ({ s with outputs := t.outputs }.answered .ok .noResult)

/-- Sender and receiver (44_frame.md R131): when two CORE instances hold the same key bytes, mask and hash choice, the
sender's FR_CIPHER and FR_AS_BYTES and the receiver's FR_LOAD_BYTES and FR_CIPHER leave the receiver's frame equal to
the sender's frame before its FR_CIPHER. -/
def Obligations.ReceiverRecoversTheSendersFrame : Prop :=
  ∀ (s s1 s2 r r1 : State) (wire : Vector Byte 32),
    r.configured → r.keyLen = s.keyLen → r.mask = s.mask → r.hashSel = s.hashSel →
    (∀ a < s.keyLen.toNat, readByte r.key a = readByte s.key a) →
    exec .frCipher s = .next s1 → s1.outputs = s.outputs ++ [⟨.ok, .noResult⟩] →
    exec .frAsBytes s1 = .next s2 → s2.outputs = s1.outputs ++ [⟨.ok, .bytes wire.toList⟩] →
    exec (.frLoadBytes wire) r = .next r1 →
    exec .frCipher r1 = .next ({ r1 with fw := s.fw }.answered .ok .noResult)

/-- The tag bit takes no part in ciphering: two frames that differ only in the tag bit are ciphered to the same payload
words (44_frame.md R130, corner cases). -/
def Obligations.TagBitTakesNoPartInCiphering : Prop :=
  ∀ (s t : State) (v : Word), v.toNat % 2 ^ 31 = s.fw[0].toNat % 2 ^ 31 → exec .frCipher s = .next t →
    t.outputs = s.outputs ++ [⟨.ok, .noResult⟩] →
    exec .frCipher { s with fw := s.fw.set 0 v } = .next { t with fw := t.fw.set 0 v }
end

