-- ==== Sys2Proof/Laws/State.lean ====
section
/-! SUPPORT. What each named update of State leaves in each field: one lemma per field per update. -/

namespace Sys2Proof.Machine

@[simp] theorem State.fwWrite_fw (s : State) (i : Fin 8) (v : Word) : (s.fwWrite i v).fw = s.fw.set i v := rfl
@[simp] theorem State.fwWrite_key (s : State) (i : Fin 8) (v : Word) : (s.fwWrite i v).key = s.key := rfl
@[simp] theorem State.fwWrite_keyLen (s : State) (i : Fin 8) (v : Word) : (s.fwWrite i v).keyLen = s.keyLen := rfl
@[simp] theorem State.fwWrite_ksValid (s : State) (i : Fin 8) (v : Word) : (s.fwWrite i v).ksValid = s.ksValid := rfl
@[simp] theorem State.fwWrite_mask (s : State) (i : Fin 8) (v : Word) : (s.fwWrite i v).mask = s.mask := rfl
@[simp] theorem State.fwWrite_hashSel (s : State) (i : Fin 8) (v : Word) : (s.fwWrite i v).hashSel = s.hashSel := rfl
@[simp] theorem State.fwWrite_itValid (s : State) (i : Fin 8) (v : Word) : (s.fwWrite i v).itValid = s.itValid := rfl
@[simp] theorem State.fwWrite_fault (s : State) (i : Fin 8) (v : Word) : (s.fwWrite i v).fault = s.fault := rfl
@[simp] theorem State.fwWrite_inputs (s : State) (i : Fin 8) (v : Word) : (s.fwWrite i v).inputs = s.inputs := rfl
@[simp] theorem State.fwWrite_outputs (s : State) (i : Fin 8) (v : Word) : (s.fwWrite i v).outputs = s.outputs := rfl

@[simp] theorem State.fwWriteAll_fw (s : State) (w : Fin 8 → Word) : (s.fwWriteAll w).fw = Vector.ofFn w := rfl
@[simp] theorem State.fwWriteAll_key (s : State) (w : Fin 8 → Word) : (s.fwWriteAll w).key = s.key := rfl
@[simp] theorem State.fwWriteAll_keyLen (s : State) (w : Fin 8 → Word) : (s.fwWriteAll w).keyLen = s.keyLen := rfl
@[simp] theorem State.fwWriteAll_ksValid (s : State) (w : Fin 8 → Word) : (s.fwWriteAll w).ksValid = s.ksValid := rfl
@[simp] theorem State.fwWriteAll_mask (s : State) (w : Fin 8 → Word) : (s.fwWriteAll w).mask = s.mask := rfl
@[simp] theorem State.fwWriteAll_hashSel (s : State) (w : Fin 8 → Word) : (s.fwWriteAll w).hashSel = s.hashSel := rfl
@[simp] theorem State.fwWriteAll_itValid (s : State) (w : Fin 8 → Word) : (s.fwWriteAll w).itValid = s.itValid := rfl
@[simp] theorem State.fwWriteAll_fault (s : State) (w : Fin 8 → Word) : (s.fwWriteAll w).fault = s.fault := rfl
@[simp] theorem State.fwWriteAll_inputs (s : State) (w : Fin 8 → Word) : (s.fwWriteAll w).inputs = s.inputs := rfl
@[simp] theorem State.fwWriteAll_outputs (s : State) (w : Fin 8 → Word) : (s.fwWriteAll w).outputs = s.outputs := rfl

@[simp] theorem State.payloadWriteAll_fw (s : State) (w : Fin 7 → Word) : (s.payloadWriteAll w).fw = Vector.ofFn (Fin.cases (s.fwRead 0) w) := rfl
@[simp] theorem State.payloadWriteAll_key (s : State) (w : Fin 7 → Word) : (s.payloadWriteAll w).key = s.key := rfl
@[simp] theorem State.payloadWriteAll_keyLen (s : State) (w : Fin 7 → Word) : (s.payloadWriteAll w).keyLen = s.keyLen := rfl
@[simp] theorem State.payloadWriteAll_ksValid (s : State) (w : Fin 7 → Word) : (s.payloadWriteAll w).ksValid = s.ksValid := rfl
@[simp] theorem State.payloadWriteAll_mask (s : State) (w : Fin 7 → Word) : (s.payloadWriteAll w).mask = s.mask := rfl
@[simp] theorem State.payloadWriteAll_hashSel (s : State) (w : Fin 7 → Word) : (s.payloadWriteAll w).hashSel = s.hashSel := rfl
@[simp] theorem State.payloadWriteAll_itValid (s : State) (w : Fin 7 → Word) : (s.payloadWriteAll w).itValid = s.itValid := rfl
@[simp] theorem State.payloadWriteAll_fault (s : State) (w : Fin 7 → Word) : (s.payloadWriteAll w).fault = s.fault := rfl
@[simp] theorem State.payloadWriteAll_inputs (s : State) (w : Fin 7 → Word) : (s.payloadWriteAll w).inputs = s.inputs := rfl
@[simp] theorem State.payloadWriteAll_outputs (s : State) (w : Fin 7 → Word) : (s.payloadWriteAll w).outputs = s.outputs := rfl

@[simp] theorem State.complete_fw (s : State) (r : Result) : (s.complete r).fw = s.fw := rfl
@[simp] theorem State.complete_key (s : State) (r : Result) : (s.complete r).key = s.key := rfl
@[simp] theorem State.complete_keyLen (s : State) (r : Result) : (s.complete r).keyLen = s.keyLen := rfl
@[simp] theorem State.complete_ksValid (s : State) (r : Result) : (s.complete r).ksValid = s.ksValid := rfl
@[simp] theorem State.complete_mask (s : State) (r : Result) : (s.complete r).mask = s.mask := rfl
@[simp] theorem State.complete_hashSel (s : State) (r : Result) : (s.complete r).hashSel = s.hashSel := rfl
@[simp] theorem State.complete_itValid (s : State) (r : Result) : (s.complete r).itValid = s.itValid := rfl
@[simp] theorem State.complete_fault (s : State) (r : Result) : (s.complete r).fault = s.fault := rfl
@[simp] theorem State.complete_inputs (s : State) (r : Result) : (s.complete r).inputs = s.inputs := rfl
@[simp] theorem State.complete_outputs (s : State) (r : Result) : (s.complete r).outputs = s.outputs ++ [⟨.ok, r⟩] := rfl

@[simp] theorem State.raise_fw (s : State) (S : Status) : (s.raise S).fw = s.fw := rfl
@[simp] theorem State.raise_key (s : State) (S : Status) : (s.raise S).key = s.key := rfl
@[simp] theorem State.raise_keyLen (s : State) (S : Status) : (s.raise S).keyLen = s.keyLen := rfl
@[simp] theorem State.raise_ksValid (s : State) (S : Status) : (s.raise S).ksValid = s.ksValid := rfl
@[simp] theorem State.raise_mask (s : State) (S : Status) : (s.raise S).mask = s.mask := rfl
@[simp] theorem State.raise_hashSel (s : State) (S : Status) : (s.raise S).hashSel = s.hashSel := rfl
@[simp] theorem State.raise_itValid (s : State) (S : Status) : (s.raise S).itValid = s.itValid := rfl
@[simp] theorem State.raise_fault (s : State) (S : Status) : (s.raise S).fault = latchFault s.fault S := rfl
@[simp] theorem State.raise_inputs (s : State) (S : Status) : (s.raise S).inputs = s.inputs := rfl
@[simp] theorem State.raise_outputs (s : State) (S : Status) : (s.raise S).outputs = s.outputs ++ [⟨S, .noResult⟩] := rfl

@[simp] theorem State.popInput_fw (s : State) : (s.popInput).fw = s.fw := rfl
@[simp] theorem State.popInput_key (s : State) : (s.popInput).key = s.key := rfl
@[simp] theorem State.popInput_keyLen (s : State) : (s.popInput).keyLen = s.keyLen := rfl
@[simp] theorem State.popInput_ksValid (s : State) : (s.popInput).ksValid = s.ksValid := rfl
@[simp] theorem State.popInput_mask (s : State) : (s.popInput).mask = s.mask := rfl
@[simp] theorem State.popInput_hashSel (s : State) : (s.popInput).hashSel = s.hashSel := rfl
@[simp] theorem State.popInput_itValid (s : State) : (s.popInput).itValid = s.itValid := rfl
@[simp] theorem State.popInput_fault (s : State) : (s.popInput).fault = s.fault := rfl
@[simp] theorem State.popInput_inputs (s : State) : (s.popInput).inputs = s.inputs.tail := rfl
@[simp] theorem State.popInput_outputs (s : State) : (s.popInput).outputs = s.outputs := rfl

@[simp] theorem State.applyReset_fw (s : State) : (s.applyReset).fw = State.reset.fw := rfl
@[simp] theorem State.applyReset_key (s : State) : (s.applyReset).key = [] := rfl
@[simp] theorem State.applyReset_keyLen (s : State) : (s.applyReset).keyLen = Config.resetKeyLen := rfl
@[simp] theorem State.applyReset_ksValid (s : State) : (s.applyReset).ksValid = false := rfl
@[simp] theorem State.applyReset_mask (s : State) : (s.applyReset).mask = Config.resetMask := rfl
@[simp] theorem State.applyReset_hashSel (s : State) : (s.applyReset).hashSel = .identity := rfl
@[simp] theorem State.applyReset_itValid (s : State) : (s.applyReset).itValid = false := rfl
@[simp] theorem State.applyReset_fault (s : State) : (s.applyReset).fault = 0#4 := rfl
@[simp] theorem State.applyReset_inputs (s : State) : (s.applyReset).inputs = s.inputs := rfl
@[simp] theorem State.applyReset_outputs (s : State) : (s.applyReset).outputs = s.outputs := rfl

end Sys2Proof.Machine
end

