-- ==== Sys2Proof/Laws/Memory.lean ====
section
/-! SUPPORT. Laws of key memory: a read after a write, the canonical form kept by every write, and what a successful
multi-byte read says of each byte. -/

namespace Sys2Proof.Machine

theorem readCell_writeCell_self (m : Memory) (x : Nat) (v : Byte) : readCell (writeCell m x v) x = some v := by
  induction m with
  | nil => simp [writeCell, readCell]
  | cons c m ih =>
    obtain ⟨a, b⟩ := c
    by_cases h1 : x < a
    · simp [writeCell, readCell, h1]
    · by_cases h2 : x = a
      · simp [writeCell, readCell, h2]
      · simp [writeCell, readCell, h1, h2, ih]

theorem readCell_writeCell_ne (m : Memory) {x y : Nat} (v : Byte) (h : y ≠ x) :
    readCell (writeCell m x v) y = readCell m y := by
  induction m with
  | nil => simp [writeCell, readCell, h]
  | cons c m ih =>
    obtain ⟨a, b⟩ := c
    by_cases h1 : x < a
    · simp [writeCell, readCell, h1, h]
    · by_cases h2 : x = a
      · subst h2
        simp [writeCell, readCell, h]
      · simp [writeCell, readCell, h1, h2, ih]

theorem readCell_writeCells_inside (m : Memory) (bs : List Byte) (a x : Nat) (h : x < bs.length) :
    readCell (writeCells m a bs) (a + x) = bs[x]? := by
  induction bs generalizing a x with
  | nil => simp at h
  | cons b bs ih =>
    cases x with
    | zero => simp [writeCells, readCell_writeCell_self]
    | succ x =>
      have hx : x < bs.length := by simpa using h
      rw [writeCells, readCell_writeCell_ne _ _ (by omega), show a + (x + 1) = a + 1 + x by omega, ih (a + 1) x hx]
      simp

theorem readCell_writeCells_outside (m : Memory) (bs : List Byte) (a y : Nat) (h : y < a ∨ a + bs.length ≤ y) :
    readCell (writeCells m a bs) y = readCell m y := by
  induction bs generalizing a with
  | nil => rfl
  | cons b bs ih =>
    simp only [List.length_cons] at h
    rw [writeCells, readCell_writeCell_ne _ _ (by omega), ih (a + 1) (by omega)]

/-- An entry of the memory after a write is the byte written or was there before. -/
theorem mem_writeCell {m : Memory} {x : Nat} {v : Byte} {c : Host.Cell} (h : c ∈ writeCell m x v) :
    c = (x, v) ∨ c ∈ m := by
  induction m with
  | nil => simpa [writeCell] using h
  | cons d m ih =>
    obtain ⟨a, b⟩ := d
    by_cases h1 : x < a
    · simpa [writeCell, h1] using h
    · by_cases h2 : x = a
      · subst h2
        simp only [writeCell, lt_self_iff_false, if_false, if_true, List.mem_cons] at h ⊢
        tauto
      · simp only [writeCell, h1, h2, if_false, List.mem_cons] at h ⊢
        rcases h with h | h
        · exact .inr (.inl h)
        · rcases ih h with h | h
          · exact .inl h
          · exact .inr (.inr h)

/-- A write below KEY_CAP_BYTES keeps the canonical form. -/
theorem writeCell_wf {m : Memory} {x : Nat} {v : Byte} (hm : m.wf) (hx : x < Config.keyCapBytes) :
    Memory.wf (writeCell m x v) := by
  refine ⟨?_, fun c hc => ?_⟩
  · obtain ⟨hs, -⟩ := hm
    induction m with
    | nil => simp [writeCell]
    | cons d m ih =>
      obtain ⟨a, b⟩ := d
      rw [List.pairwise_cons] at hs
      obtain ⟨h1, h2⟩ := hs
      by_cases hlt : x < a
      · simp only [writeCell, hlt, if_true, List.pairwise_cons]
        refine ⟨fun c hc => ?_, h1, h2⟩
        rcases List.mem_cons.1 hc with rfl | hc
        · exact hlt
        · exact hlt.trans (h1 c hc)
      · by_cases heq : x = a
        · subst heq
          simp only [writeCell, lt_self_iff_false, if_false, if_true, List.pairwise_cons]
          exact ⟨h1, h2⟩
        · simp only [writeCell, hlt, heq, if_false, List.pairwise_cons]
          refine ⟨fun c hc => ?_, ih h2⟩
          rcases mem_writeCell hc with rfl | hc
          · exact show a < x by omega
          · exact h1 c hc
  · rcases mem_writeCell hc with rfl | hc
    · exact hx
    · exact hm.2 c hc

/-- A block write below KEY_CAP_BYTES keeps the canonical form. -/
theorem writeCells_wf {m : Memory} (hm : m.wf) (bs : List Byte) (a : Nat)
    (h : a + bs.length ≤ Config.keyCapBytes) : Memory.wf (writeCells m a bs) := by
  induction bs generalizing a with
  | nil => exact hm
  | cons b bs ih =>
    simp only [List.length_cons] at h
    exact writeCell_wf (ih (a + 1) (by omega)) (by omega)

/-- The memory after reset is in canonical form. -/
theorem reset_key_wf : State.reset.key.wf := ⟨List.Pairwise.nil, fun _ h => absurd h (by simp [State.reset])⟩

/-- A byte read succeeds exactly where an existing address has a value. -/
theorem readByte_eq_ok {m : Memory} {a : Nat} {b : Byte} :
    readByte m a = .ok b ↔ a < Config.keyCapBytes ∧ readCell m a = some b := by
  unfold readByte
  split
  · rename_i h
    cases hc : readCell m a <;> simp [h]
  · rename_i h
    simp [h]

/-- No byte read raises a status: it gives a byte or a fault. -/
theorem readByte_cases (m : Memory) (a : Nat) :
    (∃ b, readByte m a = .ok b) ∨ (∃ f, readByte m a = .error (.fault f) ∧ ∀ x n, f ≠ .keyReadBeyondLength x n) := by
  unfold readByte
  split
  · cases hc : readCell m a with
    | some b => exact .inl ⟨b, rfl⟩
    | none => exact .inr ⟨_, rfl, by simp⟩
  · exact .inr ⟨_, rfl, by simp⟩

/-- What a multi-byte read that succeeds gives: the right number of bytes, each the byte at its address. -/
theorem readBytes_eq_ok {m : Memory} {a n : Nat} {bs : List Byte} (h : readBytes m a n = .ok bs) :
    bs.length = n ∧ ∀ k (hk : k < bs.length), readByte m (a + k) = .ok bs[k] := by
  induction n generalizing a bs with
  | zero =>
    simp only [readBytes, Except.ok.injEq] at h
    subst h
    exact ⟨rfl, fun k hk => absurd hk (by simp)⟩
  | succ n ih =>
    simp only [readBytes] at h
    cases hb : readByte m a with
    | error e => simp [hb, bind, Except.bind] at h
    | ok b =>
      cases hr : readBytes m (a + 1) n with
      | error e => simp [hb, hr, bind, Except.bind] at h
      | ok rs =>
        simp only [hb, hr, bind, Except.bind, Except.ok.injEq] at h
        subst h
        obtain ⟨hl, hrs⟩ := ih hr
        refine ⟨by simp [hl], fun k hk => ?_⟩
        cases k with
        | zero => simpa using hb
        | succ k =>
          have := hrs k (by simpa using hk)
          rw [show a + (k + 1) = a + 1 + k by omega]
          simpa using this

/-- A multi-byte read of existing bytes that have values succeeds. -/
theorem readBytes_of_readable {m : Memory} {a n : Nat}
    (h : ∀ k < n, ∃ b, readByte m (a + k) = .ok b) : ∃ bs, readBytes m a n = .ok bs := by
  induction n generalizing a with
  | zero => exact ⟨[], rfl⟩
  | succ n ih =>
    obtain ⟨b, hb⟩ := h 0 (by omega)
    obtain ⟨bs, hbs⟩ := ih (a := a + 1) fun k hk => by
      have := h (k + 1) (by omega)
      rwa [show a + (k + 1) = a + 1 + k by omega] at this
    exact ⟨b :: bs, by simp only [Nat.add_zero] at hb; simp [readBytes, hb, hbs, bind, Except.bind]⟩

/-- The bytes a multi-byte read gives depend on the bytes at its addresses alone. -/
theorem readBytes_congr {m m' : Memory} {a n : Nat} (h : ∀ k < n, readByte m (a + k) = readByte m' (a + k)) :
    readBytes m a n = readBytes m' a n := by
  induction n generalizing a with
  | zero => rfl
  | succ n ih =>
    have h0 := h 0 (by omega)
    rw [Nat.add_zero] at h0
    have hr := ih (a := a + 1) fun k hk => by
      have := h (k + 1) (by omega)
      rwa [show a + (k + 1) = a + 1 + k by omega] at this
    simp only [readBytes, h0, hr]

/-- A multi-byte read ends in bytes or in a fault other than a read beyond KEY_LEN; it raises no status. -/
theorem readBytes_cases (m : Memory) (a n : Nat) :
    (∃ bs, readBytes m a n = .ok bs) ∨
      (∃ f, readBytes m a n = .error (.fault f) ∧ ∀ x k, f ≠ .keyReadBeyondLength x k) := by
  induction n generalizing a with
  | zero => exact .inl ⟨[], rfl⟩
  | succ n ih =>
    rcases readByte_cases m a with ⟨b, hb⟩ | ⟨f, hf, hn⟩
    · rcases ih (a + 1) with ⟨bs, hbs⟩ | ⟨f, hf, hn⟩
      · exact .inl ⟨b :: bs, by simp [readBytes, hb, hbs, bind, Except.bind]⟩
      · exact .inr ⟨f, by simp [readBytes, hb, hf, bind, Except.bind], hn⟩
    · exact .inr ⟨f, by simp [readBytes, hf, bind, Except.bind], hn⟩

end Sys2Proof.Machine
end

