-- ==== Sys2Proof/Laws/Bytes.lean ====
section
/-! SUPPORT. Laws of the conversions between bytes and words (20_memory.md R41) and of the words of a byte list. -/

namespace Sys2Proof.Machine

@[simp] theorem bytesOfWord_length {bits : Nat} (w : BitVec bits) (n : Nat) : (bytesOfWord w n).length = n := by
  simp [bytesOfWord]

@[simp] theorem getElem_bytesOfWord {bits : Nat} (w : BitVec bits) (n i : Nat) (h : i < (bytesOfWord w n).length) :
    (bytesOfWord w n)[i] = w.extractLsb' (8 * i) 8 := by
  simp [bytesOfWord]

theorem natOfBytes_lt (bs : List Byte) : natOfBytes bs < 256 ^ bs.length := by
  induction bs with
  | nil => simp [natOfBytes]
  | cons b bs ih =>
    have hb : b.toNat < 256 := b.isLt
    simp only [natOfBytes, List.length_cons, Nat.pow_succ]
    omega

/-- Byte `i` of the number a byte list spells is element `i` of the list. -/
theorem natOfBytes_div_mod (bs : List Byte) (i : Nat) (h : i < bs.length) :
    natOfBytes bs / 256 ^ i % 256 = (bs[i]).toNat := by
  induction bs generalizing i with
  | nil => simp at h
  | cons b bs ih =>
    have hb : b.toNat < 256 := b.isLt
    cases i with
    | zero =>
      simp only [natOfBytes, Nat.pow_zero, Nat.div_one, List.getElem_cons_zero]
      omega
    | succ i =>
      have hi : i < bs.length := by simpa using h
      rw [natOfBytes, Nat.pow_succ, Nat.mul_comm (256 ^ i), ← Nat.div_div_eq_div_mul,
        show (b.toNat + 256 * natOfBytes bs) / 256 = natOfBytes bs by omega, ih i hi]
      simp

/-- Byte `i` of `word_of_bytes(bs)` is `bs[i]`, where the word is wide enough to hold it. -/
theorem wordOfBytes_byte (bits : Nat) (bs : List Byte) (i : Nat) (h : i < bs.length) (hw : 8 * (i + 1) ≤ bits) :
    (wordOfBytes bits bs).extractLsb' (8 * i) 8 = bs[i] := by
  apply BitVec.eq_of_toNat_eq
  rw [BitVec.extractLsb'_toNat, wordOfBytes, BitVec.toNat_ofNat, Nat.shiftRight_eq_div_pow,
    ← natOfBytes_div_mod bs i h, show 2 ^ (8 * i) = 256 ^ i by rw [Nat.pow_mul],
    show (2 : Nat) ^ 8 = 256 by rfl]
  obtain ⟨r, hr⟩ : ∃ r, bits = 8 * (i + 1) + r := ⟨bits - 8 * (i + 1), by omega⟩
  rw [hr, Nat.pow_add, Nat.pow_mul, show (2 : Nat) ^ 8 = 256 by rfl, Nat.pow_succ, Nat.mul_assoc,
    Nat.mod_mul_right_div_self, Nat.mod_mul_right_mod]

/-- Two words of 32 bits with the same four bytes are equal. -/
theorem word_ext_bytes {x y : Word} (h : ∀ k < 4, x.extractLsb' (8 * k) 8 = y.extractLsb' (8 * k) 8) : x = y := by
  apply BitVec.eq_of_getLsbD_eq
  intro i hi
  have := congrArg (fun b : BitVec 8 => b.getLsbD (i % 8)) (h (i / 8) (by omega))
  simpa [BitVec.getLsbD_extractLsb', Nat.mod_lt, Nat.div_add_mod] using this

theorem slice_length (bs : List Byte) (i n : Nat) (h : i + n ≤ bs.length) : (slice bs i n).length = n := by
  simp only [slice, List.length_take, List.length_drop]
  omega

theorem getElem_slice (bs : List Byte) (i n k : Nat) (h : k < (slice bs i n).length) (h' : i + k < bs.length) :
    (slice bs i n)[k] = bs[i + k] := by
  simp [slice]

/-- Byte `k` of word `i` of a byte list is byte `4*i + k` of the list. -/
theorem wordAt_byte (bs : List Byte) (i k : Nat) (hk : k < 4) (h : 4 * i + 4 ≤ bs.length) :
    (wordAt bs i).extractLsb' (8 * k) 8 = bs[4 * i + k] := by
  have hl : (slice bs (4 * i) 4).length = 4 := slice_length bs (4 * i) 4 h
  rw [wordAt, wordOfBytes_byte _ _ k (by rw [hl]; exact hk) (by show 8 * (k + 1) ≤ 32; omega)]
  exact getElem_slice bs (4 * i) 4 k (by rw [hl]; exact hk) (by omega)

@[simp] theorem bytesOfWords_nil : bytesOfWords [] = [] := rfl

@[simp] theorem bytesOfWords_cons (w : Word) (ws : List Word) :
    bytesOfWords (w :: ws) = bytesOfWord w 4 ++ bytesOfWords ws := rfl

@[simp] theorem bytesOfWords_length (ws : List Word) : (bytesOfWords ws).length = 4 * ws.length := by
  induction ws with
  | nil => rfl
  | cons w ws ih => simp [ih]; omega

/-- Byte `4*i + k` of the bytes of a word list is byte `k` of word `i`. -/
theorem getElem_bytesOfWords (ws : List Word) (i k : Nat) (hi : i < ws.length) (hk : k < 4)
    (h : 4 * i + k < (bytesOfWords ws).length) :
    (bytesOfWords ws)[4 * i + k] = (ws[i]).extractLsb' (8 * k) 8 := by
  induction ws generalizing i with
  | nil => simp at hi
  | cons w ws ih =>
    cases i with
    | zero =>
      simp only [bytesOfWords_cons, List.getElem_cons_zero]
      rw [List.getElem_append_left (by simp; omega)]
      simp
    | succ i =>
      simp only [bytesOfWords_cons, List.getElem_cons_succ]
      rw [List.getElem_append_right (by simp; omega)]
      have := ih i (by simpa using hi) (by simp at hi ⊢; omega)
      rw [← this]
      congr 1
      simp
      omega

/-- Word `i` of the bytes of a word list is the list's word `i`. -/
theorem wordAt_bytesOfWords (ws : List Word) (i : Nat) (hi : i < ws.length) : wordAt (bytesOfWords ws) i = ws[i] := by
  apply word_ext_bytes
  intro k hk
  rw [wordAt_byte _ i k hk (by simp; omega), getElem_bytesOfWords ws i k hi hk]

/-- The bytes of the words of a byte list are the list's bytes. -/
theorem bytesOfWords_wordAt (bs : List Byte) (n : Nat) (h : bs.length = 4 * n) :
    bytesOfWords ((List.range n).map (wordAt bs)) = bs := by
  apply List.ext_getElem (by simp [h])
  intro j h1 h2
  have hj : j = 4 * (j / 4) + j % 4 := by omega
  have hd : j / 4 < n := by omega
  have h1' : 4 * (j / 4) + j % 4 < (bytesOfWords ((List.range n).map (wordAt bs))).length := by omega
  have := getElem_bytesOfWords ((List.range n).map (wordAt bs)) (j / 4) (j % 4) (by simpa using hd) (by omega) h1'
  simp only [← hj] at this
  rw [this, List.getElem_map, List.getElem_range, wordAt_byte bs (j / 4) (j % 4) (by omega) (by omega)]
  congr 1
  omega

end Sys2Proof.Machine
end

