-- ==== Sys2Proof/Laws/Ops.lean ====
section
/-! SUPPORT. One lemma per shared operation that says once everything it can do: the window reads, the offset function,
the cipher datapath, the common checks and the end of an operation, and the step. -/

namespace Sys2Proof.Machine

/-- A word read that succeeds gives, byte by byte, the key bytes at the word's addresses. -/
theorem keyWord_eq_ok {s : State} {bits j : Nat} {w : BitVec bits} (h : s.keyWord bits j = .ok w) :
    ∀ k < bits / 8, readByte s.key (j * (bits / 8) + k) = .ok (w.extractLsb' (8 * k) 8) := by
  unfold State.keyWord State.memRead at h
  split at h
  · cases hr : readBytes s.key (j * (bits / 8)) (bits / 8) with
    | error e => simp [hr, bind, Except.bind] at h
    | ok bs =>
      simp only [hr, bind, Except.bind, Except.ok.injEq] at h
      obtain ⟨hl, hb⟩ := readBytes_eq_ok hr
      intro k hk
      rw [← h, wordOfBytes_byte bits bs k (by omega) (by omega)]
      exact hb k (by omega)
  · simp [bind, Except.bind] at h

/-- A word read below `total_words` ends in a word or in a fault other than a read beyond KEY_LEN. -/
theorem keyWord_cases (s : State) {bits j : Nat} (h : j < s.totalWords bits) :
    (∃ w, s.keyWord bits j = .ok w) ∨
      (∃ f, s.keyWord bits j = .error (.fault f) ∧ ∀ x n, f ≠ .keyReadBeyondLength x n) := by
  have hb : j * (bits / 8) + bits / 8 ≤ s.keyLen.toNat := by
    have := Nat.div_mul_le_self s.keyLen.toNat (bits / 8)
    have h' : (j + 1) * (bits / 8) ≤ s.totalWords bits * (bits / 8) := Nat.mul_le_mul_right _ h
    rw [Nat.add_mul] at h'
    simp only [State.totalWords] at h'
    omega
  unfold State.keyWord State.memRead
  rw [if_pos hb]
  rcases readBytes_cases s.key (j * (bits / 8)) (bits / 8) with ⟨bs, hbs⟩ | ⟨f, hf, hn⟩
  · exact .inl ⟨_, by rw [hbs]; rfl⟩
  · exact .inr ⟨f, by rw [hf]; rfl, hn⟩

/-- A word read below `total_words` of usable key material succeeds. -/
theorem keyWord_of_ready {s : State} (hs : s.keyReady) {bits j : Nat} (h : j < s.totalWords bits) :
    ∃ w, s.keyWord bits j = .ok w := by
  have hb : j * (bits / 8) + bits / 8 ≤ s.keyLen.toNat := by
    have := Nat.div_mul_le_self s.keyLen.toNat (bits / 8)
    have h' : (j + 1) * (bits / 8) ≤ s.totalWords bits * (bits / 8) := Nat.mul_le_mul_right _ h
    rw [Nat.add_mul] at h'
    simp only [State.totalWords] at h'
    omega
  obtain ⟨bs, hbs⟩ := readBytes_of_readable (m := s.key) (a := j * (bits / 8)) (n := bits / 8) fun k hk => by
    obtain ⟨v, hv⟩ := Option.isSome_iff_exists.1 (hs.2.2 (j * (bits / 8) + k) (by omega))
    exact ⟨v, readByte_eq_ok.2 ⟨by have := hs.1; omega, hv⟩⟩
  exact ⟨_, by unfold State.keyWord State.memRead; rw [if_pos hb, hbs]; rfl⟩

/-- What a window read that succeeds gives: the right number of words, each the key word at its place. -/
theorem subkey_eq_ok {s : State} {bits off len : Nat} {ws : List (BitVec bits)} (h : s.subkey bits off len = .ok ws) :
    ws.length = len ∧ ∀ j (hj : j < ws.length), s.keyWord bits (off + j) = .ok ws[j] := by
  induction len generalizing off ws with
  | zero =>
    simp only [State.subkey, Except.ok.injEq] at h
    subst h
    exact ⟨rfl, fun j hj => absurd hj (by simp)⟩
  | succ len ih =>
    simp only [State.subkey] at h
    cases hw : s.keyWord bits off with
    | error e => simp [hw, bind, Except.bind] at h
    | ok w =>
      cases hr : s.subkey bits (off + 1) len with
      | error e => simp [hw, hr, bind, Except.bind] at h
      | ok rs =>
        simp only [hw, hr, bind, Except.bind, Except.ok.injEq] at h
        subst h
        obtain ⟨hl, hrs⟩ := ih hr
        refine ⟨by simp [hl], fun j hj => ?_⟩
        cases j with
        | zero => simpa using hw
        | succ j =>
          have := hrs j (by simpa using hj)
          rw [show off + (j + 1) = off + 1 + j by omega]
          simpa using this

/-- A window read inside `total_words` ends in words or in a fault other than a read beyond KEY_LEN (R46). -/
theorem subkey_cases (s : State) {bits off len : Nat} (h : off + len ≤ s.totalWords bits) :
    (∃ ws, s.subkey bits off len = .ok ws) ∨
      (∃ f, s.subkey bits off len = .error (.fault f) ∧ ∀ x n, f ≠ .keyReadBeyondLength x n) := by
  induction len generalizing off with
  | zero => exact .inl ⟨[], rfl⟩
  | succ len ih =>
    rcases keyWord_cases s (bits := bits) (j := off) (by omega) with ⟨w, hw⟩ | ⟨f, hf, hn⟩
    · rcases ih (off := off + 1) (by omega) with ⟨ws, hws⟩ | ⟨f, hf, hn⟩
      · exact .inl ⟨w :: ws, by simp [State.subkey, hw, hws, bind, Except.bind]⟩
      · exact .inr ⟨f, by simp [State.subkey, hw, hf, bind, Except.bind], hn⟩
    · exact .inr ⟨f, by simp [State.subkey, hf, bind, Except.bind], hn⟩

/-- A window read inside `total_words` of usable key material succeeds. -/
theorem subkey_of_ready {s : State} (hs : s.keyReady) {bits off len : Nat} (h : off + len ≤ s.totalWords bits) :
    ∃ ws, s.subkey bits off len = .ok ws := by
  induction len generalizing off with
  | zero => exact ⟨[], rfl⟩
  | succ len ih =>
    obtain ⟨w, hw⟩ := keyWord_of_ready hs (bits := bits) (j := off) (by omega)
    obtain ⟨ws, hws⟩ := ih (off := off + 1) (by omega)
    exact ⟨w :: ws, by simp [State.subkey, hw, hws, bind, Except.bind]⟩

/-- The offset function where it gives an offset (R92): the length fits, and the offset leaves room for the window. -/
theorem offsetFor_eq_ok {s : State} {index : Word} {len off : Nat} (h : s.offsetFor index len = .ok off) :
    len ≤ s.totalWords 32 ∧ off = (s.hashSel.apply (index ^^^ s.mask)).toNat % (s.totalWords 32 - len + 1) ∧
      off + len ≤ s.totalWords 32 := by
  unfold State.offsetFor at h
  split at h
  · simp [raising] at h
  · rename_i hl
    simp only [Except.ok.injEq] at h
    have := Nat.mod_lt (s.hashSel.apply (index ^^^ s.mask)).toNat (Nat.succ_pos (s.totalWords 32 - len))
    rw [Nat.succ_eq_add_one] at this
    simp only [Config.wordBits] at h hl
    refine ⟨by omega, h.symm, ?_⟩
    rw [← h]
    omega

theorem offsetFor_of_le {s : State} (index : Word) {len : Nat} (h : len ≤ s.totalWords 32) :
    s.offsetFor index len =
      .ok ((s.hashSel.apply (index ^^^ s.mask)).toNat % (s.totalWords 32 - len + 1)) := by
  unfold State.offsetFor
  rw [if_neg (by simpa using h)]

theorem offsetFor_of_gt {s : State} (index : Word) {len : Nat} (h : s.totalWords 32 < len) :
    s.offsetFor index len = .error (.status .noValidOffset) := by
  unfold State.offsetFor
  rw [if_pos (by simpa using h)]
  rfl

/-- The cipher datapath where it gives a block (R100): the window at the offset, XORed word by word. -/
theorem bcApply_eq_ok {s : State} {index : Word} {block out : List Byte} (h : s.bcApply index block = .ok out) :
    ∃ off sk, s.offsetFor index 7 = .ok off ∧ s.subkey 32 off 7 = .ok sk ∧
      out = bytesOfWords (List.zipWith (· ^^^ ·) ((List.range 7).map (wordAt block)) sk) := by
  simp only [State.bcApply, Config.lBlock, Config.wordBits] at h
  cases ho : s.offsetFor index 7 with
  | error e => simp [ho, bind, Except.bind] at h
  | ok off =>
    cases hk : s.subkey 32 off 7 with
    | error e => simp [ho, hk, bind, Except.bind] at h
    | ok sk =>
      simp only [ho, hk, bind, Except.bind, Except.ok.injEq] at h
      exact ⟨off, sk, rfl, hk, h.symm⟩

/-- The cipher datapath on a window that can be read. -/
theorem bcApply_of_ok {s : State} {index : Word} {off : Nat} {sk : List Word} (block : List Byte)
    (ho : s.offsetFor index 7 = .ok off) (hk : s.subkey 32 off 7 = .ok sk) :
    s.bcApply index block = .ok (bytesOfWords (List.zipWith (· ^^^ ·) ((List.range 7).map (wordAt block)) sk)) := by
  simp only [State.bcApply, Config.lBlock, Config.wordBits, ho, hk, bind, Except.bind]

/-- How the cipher datapath can end: with NoValidOffset when the key is too short, else with a block or with a fault
other than a read beyond KEY_LEN. -/
theorem bcApply_cases (s : State) (index : Word) (block : List Byte) :
    (s.totalWords 32 < 7 ∧ s.bcApply index block = .error (.status .noValidOffset)) ∨
    (7 ≤ s.totalWords 32 ∧ ∃ out, s.bcApply index block = .ok out) ∨
    (7 ≤ s.totalWords 32 ∧ ∃ f, s.bcApply index block = .error (.fault f) ∧ ∀ x n, f ≠ .keyReadBeyondLength x n) := by
  rcases Nat.lt_or_ge (s.totalWords 32) 7 with h | h
  · exact .inl ⟨h, by simp [State.bcApply, Config.lBlock, offsetFor_of_gt index h, bind, Except.bind]⟩
  · have ho := offsetFor_of_le index h
    have hb := (offsetFor_eq_ok ho).2.2
    rcases subkey_cases s (bits := 32) hb with ⟨ws, hws⟩ | ⟨f, hf, hn⟩
    · exact .inr (.inl ⟨h, _, bcApply_of_ok block ho hws⟩)
    · exact .inr (.inr ⟨h, f, by simp [State.bcApply, Config.lBlock, Config.wordBits, ho, hf, bind, Except.bind], hn⟩)

/-- The cipher datapath gives a block whenever the key material is usable and long enough. -/
theorem bcApply_of_ready {s : State} (hs : s.keyReady) (h : 7 ≤ s.totalWords 32) (index : Word) (block : List Byte) :
    ∃ out, s.bcApply index block = .ok out := by
  have ho := offsetFor_of_le index h
  obtain ⟨ws, hws⟩ := subkey_of_ready hs (bits := 32) (offsetFor_eq_ok ho).2.2
  exact ⟨_, bcApply_of_ok block ho hws⟩

/-- Everything the common checks can do (R152). -/
theorem perform_cases (needs : Needs) (body : State → Attempt (State × Result)) (s : State) :
    (s.fault ≠ 0#4 ∧ perform needs body s = .next (s.raise .faulted)) ∨
    (s.fault = 0#4 ∧ needs.met s = false ∧ perform needs body s = .next (s.raise .notConfigured)) ∨
    (s.fault = 0#4 ∧ needs.met s = true ∧ perform needs body s = settle s (body s)) := by
  unfold perform
  by_cases h : s.fault = 0#4
  · cases hm : needs.met s
    · exact .inr (.inl ⟨h, rfl, by simp [h]⟩)
    · exact .inr (.inr ⟨h, rfl, by simp [h]⟩)
  · exact .inl ⟨h, if_pos h⟩

/-- An operation whose common checks pass and whose pseudocode completes. -/
theorem perform_of_ok {needs : Needs} {body : State → Attempt (State × Result)} {s t : State} {r : Result}
    (hf : s.fault = 0#4) (hn : needs.met s = true) (hb : body s = .ok (t, r)) :
    perform needs body s = .next (t.complete r) := by
  simp [perform, hf, hn, hb, settle]

/-- An operation whose common checks pass and whose pseudocode raises a status. -/
theorem perform_of_raise {needs : Needs} {body : State → Attempt (State × Result)} {s : State} {S : Status}
    (hf : s.fault = 0#4) (hn : needs.met s = true) (hb : body s = .error (.status S)) :
    perform needs body s = .next (s.raise S) := by
  simp [perform, hf, hn, hb, settle]

/-- A latched fault is answered before anything else (R146, R152). -/
theorem perform_of_faulted {needs : Needs} {body : State → Attempt (State × Result)} {s : State} (hf : s.fault ≠ 0#4) :
    perform needs body s = .next (s.raise .faulted) := if_pos hf

/-- A next state of an operation is a completion of its pseudocode or the state before with a status raised. -/
theorem perform_eq_next {needs : Needs} {body : State → Attempt (State × Result)} {s t : State}
    (h : perform needs body s = .next t) :
    (s.fault = 0#4 ∧ needs.met s = true ∧ ∃ u r, body s = .ok (u, r) ∧ t = u.complete r) ∨
    (∃ S, t = s.raise S ∧
      (s.fault ≠ 0#4 ∧ S = .faulted ∨ s.fault = 0#4 ∧ needs.met s = false ∧ S = .notConfigured ∨
        s.fault = 0#4 ∧ needs.met s = true ∧ body s = .error (.status S))) := by
  rcases perform_cases needs body s with ⟨hf, hp⟩ | ⟨hf, hm, hp⟩ | ⟨hf, hm, hp⟩ <;> rw [hp] at h
  · exact .inr ⟨.faulted, by simpa using h.symm, .inl ⟨hf, rfl⟩⟩
  · exact .inr ⟨.notConfigured, by simpa using h.symm, .inr (.inl ⟨hf, hm, rfl⟩)⟩
  · unfold settle at h
    split at h
    · rename_i u r hb
      exact .inl ⟨hf, hm, u, r, hb, by simpa using h.symm⟩
    · rename_i S hb
      exact .inr ⟨S, by simpa using h.symm, .inr (.inr ⟨hf, hm, hb⟩)⟩
    · cases h

/-- Only the pseudocode of an operation can end in a fault. -/
theorem perform_eq_fault {needs : Needs} {body : State → Attempt (State × Result)} {s : State} {f : Fault}
    (h : perform needs body s = .fault f) : s.fault = 0#4 ∧ needs.met s = true ∧ body s = .error (.fault f) := by
  rcases perform_cases needs body s with ⟨hf, hp⟩ | ⟨hf, hm, hp⟩ | ⟨hf, hm, hp⟩ <;> rw [hp] at h
  · cases h
  · cases h
  · unfold settle at h
    split at h
    · cases h
    · cases h
    · rename_i g hb
      cases h
      exact ⟨hf, hm, hb⟩

/-- No operation refuses. -/
theorem perform_ne_refused (needs : Needs) (body : State → Attempt (State × Result)) (s : State) (q : Refusal) :
    perform needs body s ≠ .refused q := by
  rcases perform_cases needs body s with ⟨-, hp⟩ | ⟨-, -, hp⟩ | ⟨-, -, hp⟩ <;> rw [hp]
  · simp
  · simp
  · unfold settle
    split <;> simp

/-- Everything one step can do. -/
theorem step_cases (s : State) :
    (s.inputs = [] ∧ step s = .next s) ∨
    (∃ rest, s.inputs = .reset :: rest ∧ step s = .next s.popInput.applyReset) ∨
    (∃ c rest e, s.inputs = .command c :: rest ∧ decode c = .error e ∧ step s = .next s.popInput.rejectIllegal) ∨
    (∃ c rest i, s.inputs = .command c :: rest ∧ decode c = .ok i ∧ step s = exec i s.popInput) := by
  cases hi : s.inputs with
  | nil => exact .inl ⟨rfl, by simp [step, State.arrival, hi]⟩
  | cons x rest =>
    cases x with
    | reset => exact .inr (.inl ⟨rest, rfl, by simp [step, State.arrival, hi]⟩)
    | command c =>
      cases hd : decode c with
      | error e => exact .inr (.inr (.inl ⟨c, rest, e, rfl, hd, by simp [step, State.arrival, hi, hd]⟩))
      | ok i => exact .inr (.inr (.inr ⟨c, rest, i, rfl, hd, by simp [step, State.arrival, hi, hd]⟩))

end Sys2Proof.Machine
end

