-- ==== Sys2Proof/Laws/Exec.lean ====
section
/-! SUPPORT. Every operation is the common checks followed by its own pseudocode, and what any pseudocode can end in. -/

namespace Sys2Proof.Machine

/-- The valid flags an instruction needs (60_exceptions.md R152). -/
def needsOf : Instr → Needs
  | .ksLoad _ => .nothing
  | .ksSubkey _ _ _ => .key
  | .itConfig _ _ => .nothing
  | .itOffset _ _ => .keyAndTransform
  | .bcApply _ _ => .keyAndTransform
  | .ftNew _ => .nothing
  | .ftGetIndex => .nothing
  | .ftSetIndex _ => .nothing
  | .ftGetTag => .nothing
  | .ftSetTag _ => .nothing
  | .ftTagBits => .nothing
  | .frNew => .nothing
  | .frAsBytes => .nothing
  | .frLoadBytes _ => .nothing
  | .frCipher => .keyAndTransform
  | .frSetPayload _ _ => .nothing
  | .frGetPayload _ => .nothing

/-- The pseudocode of an instruction. -/
def bodyOf : Instr → State → Attempt (State × Result)
  | .ksLoad kdata => ksLoadBody kdata
  | .ksSubkey w wordOffset len => ksSubkeyBody w wordOffset len
  | .itConfig mask hashSel => itConfigBody mask hashSel
  | .itOffset index len => itOffsetBody index len
  | .bcApply index wdata => bcApplyBody index wdata
  | .ftNew index => ftNewBody index
  | .ftGetIndex => ftGetIndexBody
  | .ftSetIndex index => ftSetIndexBody index
  | .ftGetTag => ftGetTagBody
  | .ftSetTag tag => ftSetTagBody tag
  | .ftTagBits => ftTagBitsBody
  | .frNew => frNewBody
  | .frAsBytes => frAsBytesBody
  | .frLoadBytes wdata => frLoadBytesBody wdata
  | .frCipher => frCipherBody
  | .frSetPayload i value => frSetPayloadBody i value
  | .frGetPayload i => frGetPayloadBody i

theorem exec_eq_perform (i : Instr) (s : State) : exec i s = perform (needsOf i) (bodyOf i) s := by
  cases i <;> rfl

/-- Everything the pseudocode of KS_LOAD can end in. -/
theorem ksLoadBody_cases (kdata : List Byte) (s : State) :
    (s.ksValid = true ∧ ksLoadBody kdata s = .error (.status .keyLocked)) ∨
    (s.ksValid = false ∧ (kdata.length % 4 ≠ 0 ∨ 53280 < kdata.length) ∧
      ksLoadBody kdata s = .error (.status .invalidKeyLength)) ∨
    (s.ksValid = false ∧ kdata.length % 4 = 0 ∧ kdata.length ≤ 53280 ∧
      ksLoadBody kdata s = .ok ({ s with
        key := writeCells s.key 0 kdata, keyLen := BitVec.ofNat 32 kdata.length, ksValid := true }, .noResult)) := by
  unfold ksLoadBody
  cases hk : s.ksValid
  · by_cases h2 : kdata.length % 4 = 0
    · by_cases h3 : 53280 < kdata.length
      · exact .inr (.inl ⟨rfl, .inr h3, by simp [h2, h3, raising]⟩)
      · have h3' : kdata.length ≤ 53280 := by omega
        refine .inr (.inr ⟨rfl, h2, h3', ?_⟩)
        simp [h2, h3, State.memWrite, h3', bind, Except.bind]
    · exact .inr (.inl ⟨rfl, .inl h2, by simp [h2, raising]⟩)
  · exact .inl ⟨rfl, by simp [raising]⟩

/-- Everything the pseudocode of KS_SUBKEY can end in. -/
theorem ksSubkeyBody_cases (w : WordWidth) (off len : Word) (s : State) :
    (Config.keyAlign < w.bits / 8 ∧ ksSubkeyBody w off len s = .error (.status .misalignedAccess)) ∨
    (w.bits / 8 ≤ Config.keyAlign ∧ s.totalWords w.bits < len.toNat ∧
      ksSubkeyBody w off len s = .error (.status .subkeyTooLarge)) ∨
    (w.bits / 8 ≤ Config.keyAlign ∧ len.toNat ≤ s.totalWords w.bits ∧
      s.totalWords w.bits < off.toNat + len.toNat ∧
      ksSubkeyBody w off len s = .error (.status .offsetOutOfRange)) ∨
    (w.bits / 8 ≤ Config.keyAlign ∧ off.toNat + len.toNat ≤ s.totalWords w.bits ∧
      ((∃ ws, s.subkey w.bits off.toNat len.toNat = .ok ws ∧ ksSubkeyBody w off len s = .ok (s, .words w.bits ws)) ∨
        ∃ f, s.subkey w.bits off.toNat len.toNat = .error (.fault f) ∧
          ksSubkeyBody w off len s = .error (.fault f) ∧ ∀ x n, f ≠ .keyReadBeyondLength x n)) := by
  unfold ksSubkeyBody
  by_cases h1 : Config.keyAlign < w.bits / 8
  · exact .inl ⟨h1, by simp [h1, raising]⟩
  · by_cases h2 : s.totalWords w.bits < len.toNat
    · exact .inr (.inl ⟨by omega, h2, by simp [h1, h2, raising]⟩)
    · by_cases h3 : s.totalWords w.bits < off.toNat + len.toNat
      · exact .inr (.inr (.inl ⟨by omega, by omega, h3, by simp [h1, h2, h3, raising]⟩))
      · refine .inr (.inr (.inr ⟨by omega, by omega, ?_⟩))
        rcases subkey_cases s (bits := w.bits) (off := off.toNat) (len := len.toNat) (by omega) with
          ⟨ws, hws⟩ | ⟨f, hf, hn⟩
        · exact .inl ⟨ws, hws, by simp [h1, h2, h3, hws, bind, Except.bind]⟩
        · exact .inr ⟨f, hf, by simp [h1, h2, h3, hf, bind, Except.bind], hn⟩

/-- Everything the pseudocode of IT_CONFIG can end in. -/
theorem itConfigBody_cases (mask sel : Word) (s : State) :
    (sel.toNat = 0 ∧ itConfigBody mask sel s =
      .ok ({ s with mask := mask, hashSel := .identity, itValid := true }, .noResult)) ∨
    (sel.toNat = 1 ∧ itConfigBody mask sel s =
      .ok ({ s with mask := mask, hashSel := .custom, itValid := true }, .noResult)) ∨
    (1 < sel.toNat ∧ itConfigBody mask sel s = .error (.status .badOperand)) := by
  unfold itConfigBody hashSelOperand
  split
  · rename_i h
    exact .inl ⟨h, rfl⟩
  · rename_i h
    exact .inr (.inl ⟨h, rfl⟩)
  · rename_i h0 h1
    have h0' : sel.toNat ≠ 0 := h0
    have h1' : sel.toNat ≠ 1 := h1
    exact .inr (.inr ⟨by omega, rfl⟩)

/-- Everything the pseudocode of IT_OFFSET can end in. -/
theorem itOffsetBody_cases (index len : Word) (s : State) :
    (s.totalWords 32 < len.toNat ∧ itOffsetBody index len s = .error (.status .noValidOffset)) ∨
    (len.toNat ≤ s.totalWords 32 ∧ itOffsetBody index len s =
      .ok (s, .scalar (BitVec.ofNat 32
        ((s.hashSel.apply (index ^^^ s.mask)).toNat % (s.totalWords 32 - len.toNat + 1))))) := by
  unfold itOffsetBody
  rcases Nat.lt_or_ge (s.totalWords 32) len.toNat with h | h
  · exact .inl ⟨h, by simp [offsetFor_of_gt index h, bind, Except.bind]⟩
  · exact .inr ⟨h, by simp [offsetFor_of_le index h, bind, Except.bind]⟩

/-- Everything the pseudocode of BC_APPLY can end in. -/
theorem bcApplyBody_cases (index : Word) (block : Vector Byte 28) (s : State) :
    (s.totalWords 32 < 7 ∧ bcApplyBody index block s = .error (.status .noValidOffset)) ∨
    (7 ≤ s.totalWords 32 ∧ ((∃ out, s.bcApply index block.toList = .ok out ∧
        bcApplyBody index block s = .ok (s, .bytes out)) ∨
      ∃ f, bcApplyBody index block s = .error (.fault f) ∧ ∀ x n, f ≠ .keyReadBeyondLength x n)) := by
  unfold bcApplyBody
  rcases bcApply_cases s index block.toList with ⟨h, hb⟩ | ⟨h, out, hb⟩ | ⟨h, f, hb, hn⟩
  · exact .inl ⟨h, by simp [hb, bind, Except.bind]⟩
  · exact .inr ⟨h, .inl ⟨out, hb, by simp [hb, bind, Except.bind]⟩⟩
  · exact .inr ⟨h, .inr ⟨f, by simp [hb, bind, Except.bind], hn⟩⟩

/-- Everything the pseudocode of FR_CIPHER can end in. -/
theorem frCipherBody_cases (s : State) :
    (s.totalWords 32 < 7 ∧ frCipherBody s = .error (.status .noValidOffset)) ∨
    (7 ≤ s.totalWords 32 ∧ ((∃ out, s.bcApply (ftGetIndex s.tagw) s.payloadBytes = .ok out ∧
        frCipherBody s = .ok (s.payloadWriteAll fun i => wordAt out i, .noResult)) ∨
      ∃ f, frCipherBody s = .error (.fault f) ∧ ∀ x n, f ≠ .keyReadBeyondLength x n)) := by
  unfold frCipherBody
  rcases bcApply_cases s (ftGetIndex s.tagw) s.payloadBytes with ⟨h, hb⟩ | ⟨h, out, hb⟩ | ⟨h, f, hb, hn⟩
  · exact .inl ⟨h, by simp [hb, bind, Except.bind]⟩
  · exact .inr ⟨h, .inl ⟨out, hb, by simp [hb, bind, Except.bind]⟩⟩
  · exact .inr ⟨h, .inr ⟨f, by simp [hb, bind, Except.bind], hn⟩⟩

/-- Everything the pseudocode of FR_SET_PAYLOAD can end in. -/
theorem frSetPayloadBody_cases (i value : Word) (s : State) :
    (∃ h : i.toNat < 7, frSetPayloadBody i value s =
      .ok (s.fwWrite ⟨1 + i.toNat, Nat.add_lt_add_left h 1⟩ value, .noResult)) ∨
    (7 ≤ i.toNat ∧ frSetPayloadBody i value s = .error (.status .badOperand)) := by
  unfold frSetPayloadBody payloadRegister
  by_cases h : i.toNat < 7
  · exact .inl ⟨h, by rw [dif_pos h]; rfl⟩
  · exact .inr ⟨by omega, by rw [dif_neg h]; rfl⟩

/-- Everything the pseudocode of FR_GET_PAYLOAD can end in. -/
theorem frGetPayloadBody_cases (i : Word) (s : State) :
    (∃ h : i.toNat < 7, frGetPayloadBody i s =
      .ok (s, .scalar (s.fwRead ⟨1 + i.toNat, Nat.add_lt_add_left h 1⟩))) ∨
    (7 ≤ i.toNat ∧ frGetPayloadBody i s = .error (.status .badOperand)) := by
  unfold frGetPayloadBody payloadRegister
  by_cases h : i.toNat < 7
  · exact .inl ⟨h, by rw [dif_pos h]; rfl⟩
  · exact .inr ⟨by omega, by rw [dif_neg h]; rfl⟩

end Sys2Proof.Machine
end

