-- ==== Sys2Proof/Laws/PerInstr.lean ====
section
/-! SUPPORT. The statements made per instruction: every instruction's encoding stands in its own row of the opcode table
(30_encoding.md R68). -/

/-- The command an instruction is encoded as matches a row of the opcode table whose `op` is the instruction's code. -/
def Sys2Proof.Laws.TableRow.Statement (i : Sys2Proof.Instr) : Prop :=
  ∃ r ∈ Sys2Proof.opcodeTable, (Sys2Proof.encode i).matchesRow r = true ∧ r.pattern.extractLsb' 0 5 = i.opCode

namespace Sys2Proof.Laws.TableRow

/-- An instruction stands in a row that its CTRL word matches and whose code is its own. -/
theorem of_row {i : Instr} {r : OpcodeRow} (w : Word) (op : BitVec 5) (hr : r ∈ opcodeTable)
    (hw : (encode i).ctrl = w) (ho : i.opCode = op) (hm : (w &&& r.mask == r.pattern) = true)
    (hp : r.pattern.extractLsb' 0 5 = op) : Statement i :=
  ⟨r, hr, by rw [Command.matchesRow, hw]; exact hm, by rw [hp, ho]⟩

theorem ksLoad (kdata : List Byte) : Statement (.ksLoad kdata) :=
  of_row (r := opcodeTable[0]) (ctrlWord 0 1) 1 (by decide) rfl rfl (by decide) (by decide)

theorem ksSubkey (w : WordWidth) (wordOffset len : Word) : Statement (.ksSubkey w wordOffset len) := by
  cases w
  · exact of_row (r := opcodeTable[1]) (ctrlWord 0 2) 2 (by decide) rfl rfl (by decide) (by decide)
  · exact of_row (r := opcodeTable[1]) (ctrlWord 1 2) 2 (by decide) rfl rfl (by decide) (by decide)
  · exact of_row (r := opcodeTable[1]) (ctrlWord 2 2) 2 (by decide) rfl rfl (by decide) (by decide)
  · exact of_row (r := opcodeTable[1]) (ctrlWord 3 2) 2 (by decide) rfl rfl (by decide) (by decide)

theorem itConfig (mask hashSel : Word) : Statement (.itConfig mask hashSel) :=
  of_row (r := opcodeTable[2]) (ctrlWord 0 3) 3 (by decide) rfl rfl (by decide) (by decide)

theorem itOffset (index len : Word) : Statement (.itOffset index len) :=
  of_row (r := opcodeTable[3]) (ctrlWord 0 4) 4 (by decide) rfl rfl (by decide) (by decide)

theorem bcApply (index : Word) (wdata : Vector Byte 28) : Statement (.bcApply index wdata) :=
  of_row (r := opcodeTable[4]) (ctrlWord 0 5) 5 (by decide) rfl rfl (by decide) (by decide)

theorem ftNew (index : Word) : Statement (.ftNew index) :=
  of_row (r := opcodeTable[5]) (ctrlWord 0 6) 6 (by decide) rfl rfl (by decide) (by decide)

theorem ftGetIndex : Statement .ftGetIndex :=
  of_row (r := opcodeTable[6]) (ctrlWord 0 7) 7 (by decide) rfl rfl (by decide) (by decide)

theorem ftSetIndex (index : Word) : Statement (.ftSetIndex index) :=
  of_row (r := opcodeTable[7]) (ctrlWord 0 8) 8 (by decide) rfl rfl (by decide) (by decide)

theorem ftGetTag : Statement .ftGetTag :=
  of_row (r := opcodeTable[8]) (ctrlWord 0 9) 9 (by decide) rfl rfl (by decide) (by decide)

theorem ftSetTag (tag : Word) : Statement (.ftSetTag tag) :=
  of_row (r := opcodeTable[9]) (ctrlWord 0 10) 10 (by decide) rfl rfl (by decide) (by decide)

theorem ftTagBits : Statement .ftTagBits :=
  of_row (r := opcodeTable[10]) (ctrlWord 0 11) 11 (by decide) rfl rfl (by decide) (by decide)

theorem frNew : Statement .frNew :=
  of_row (r := opcodeTable[11]) (ctrlWord 0 12) 12 (by decide) rfl rfl (by decide) (by decide)

theorem frAsBytes : Statement .frAsBytes :=
  of_row (r := opcodeTable[12]) (ctrlWord 0 13) 13 (by decide) rfl rfl (by decide) (by decide)

theorem frLoadBytes (wdata : Vector Byte 32) : Statement (.frLoadBytes wdata) :=
  of_row (r := opcodeTable[13]) (ctrlWord 0 14) 14 (by decide) rfl rfl (by decide) (by decide)

theorem frCipher : Statement .frCipher :=
  of_row (r := opcodeTable[14]) (ctrlWord 0 15) 15 (by decide) rfl rfl (by decide) (by decide)

theorem frSetPayload (n value : Word) : Statement (.frSetPayload n value) :=
  of_row (r := opcodeTable[15]) (ctrlWord 0 16) 16 (by decide) rfl rfl (by decide) (by decide)

theorem frGetPayload (n : Word) : Statement (.frGetPayload n) :=
  of_row (r := opcodeTable[16]) (ctrlWord 0 17) 17 (by decide) rfl rfl (by decide) (by decide)

end Sys2Proof.Laws.TableRow
end

