-- ==== Sys2Proof/Tests/Slice0.lean ====
section
/-! SUPPORT. The model's own tests: the smoke test of WellFormed, words written out from 30_encoding.md and
95_test_vectors.md, one step of each operation on the vectors of 95_test_vectors.md (their names stand in the comments),
and for every statement with hypotheses a concrete case that meets them all. -/

namespace Sys2Proof.Tests

open Sys2Proof.Machine

/-! ## Small states and projections -/

/-- The state an outcome gives; the reset state stands for a stop. -/
def after : Host.Outcome State Fault Refusal → State
  | .next s => s
  | .fault _ => State.reset
  | .refused _ => State.reset

/-- An outcome is a next state. -/
def isNext : Host.Outcome State Fault Refusal → Bool
  | .next _ => true
  | .fault _ => false
  | .refused _ => false

theorem next_after {o : Host.Outcome State Fault Refusal} (h : isNext o = true) : o = .next (after o) := by
  cases o with
  | next s => rfl
  | fault f => cases h
  | refused r => cases h

/-- The last answer of an outcome. -/
def answer (o : Host.Outcome State Fault Refusal) : Option Response := (after o).outputs.getLast?

/-- The bytes 0, 1, …, n-1: the key K32 of 95_test_vectors.md for n = 32. -/
def counting (n : Nat) : List Byte := (List.range n).map (BitVec.ofNat 8)

/-- A state with the key `counting n` loaded and the transform configured with a mask and the identity hash. -/
def loaded (n : Nat) (mask : Word) : State :=
  { State.reset with
    key := (counting n).zipIdx.map fun p => (p.2, p.1)
    keyLen := BitVec.ofNat 32 n
    ksValid := true
    mask := mask
    itValid := true }

/-- The frame of the end-to-end scenario (95_test_vectors.md S5). -/
def clearFrame : Vector Word 8 := #v[5, 0, 1, 2, 3, 4, 5, 6]

/-- That frame ciphered under K32 and mask 0 (V-FR-7). -/
def cipheredFrame : Vector Word 8 :=
  #v[5, 0x07060504, 0x0B0A0909, 0x0F0E0D0E, 0x13121113, 0x17161510, 0x1B1A191D, 0x1F1E1D1A]

/-- The block of V-BC-1. -/
def clearBlock : Vector Byte 28 :=
  #v[0, 0, 0, 0, 1, 0, 0, 0, 2, 0, 0, 0, 3, 0, 0, 0, 4, 0, 0, 0, 5, 0, 0, 0, 6, 0, 0, 0]

/-- The result of V-BC-1. -/
def cipheredBlock : Vector Byte 28 :=
  #v[0x04, 0x05, 0x06, 0x07, 0x09, 0x09, 0x0A, 0x0B, 0x0E, 0x0D, 0x0E, 0x0F, 0x13, 0x11,
    0x12, 0x13, 0x10, 0x15, 0x16, 0x17, 0x1D, 0x19, 0x1A, 0x1B, 0x1A, 0x1D, 0x1E, 0x1F]

/-- A state whose host is about to issue one command. -/
def issuing (s : State) (c : Command) : State := { s with inputs := [.command c] }

/-- A state with a latched fault. -/
def faulted : State := { loaded 32 0 with fault := 4, fw := clearFrame }

/-- The sender, the same key and mask with the scenario's clear frame. -/
def sender : State := { loaded 32 0 with fw := clearFrame }

/-! ## WellFormed -/

theorem test_wellFormed_refuses_a_blob_longer_than_arg0 :
    (Instr.ksLoad (List.replicate (2 ^ 32) 0)).wellFormed = false := by
  rw [Instr.wellFormed, List.length_replicate]; decide

theorem test_wellFormed_accepts_the_longest_blob :
    (Instr.ksLoad (List.replicate (2 ^ 32 - 1) 0)).wellFormed = true := by
  rw [Instr.wellFormed, List.length_replicate]; decide

/-! ## Decoding: the words of 95_test_vectors.md -/

theorem test_decode_ksLoad : decode ⟨0x00000001, 0x00000004, 0, [1, 2, 3, 4]⟩ = .ok (.ksLoad [1, 2, 3, 4]) := by decide
theorem test_decode_ksSubkey_w8 : decode ⟨0x00000002, 0x0000001E, 0x00000002, []⟩ = .ok (.ksSubkey .w8 30 2) := by decide
theorem test_decode_ksSubkey_w16 : decode ⟨0x00000022, 0x00000001, 0x00000002, []⟩ = .ok (.ksSubkey .w16 1 2) := by decide
theorem test_decode_ksSubkey_w32 : decode ⟨0x00000042, 0x00000005, 0x00000004, []⟩ = .ok (.ksSubkey .w32 5 4) := by decide
theorem test_decode_ksSubkey_w64 : decode ⟨0x00000062, 0x00000000, 0x00000009, []⟩ = .ok (.ksSubkey .w64 0 9) := by decide
theorem test_decode_itConfig : decode ⟨0x00000003, 0xDEADBEEF, 0x00000002, []⟩ = .ok (.itConfig 0xDEADBEEF 2) := by decide
theorem test_decode_itOffset : decode ⟨0x00000004, 0x7FFFFFFF, 0x00000007, []⟩ = .ok (.itOffset 0x7FFFFFFF 7) := by decide
theorem test_decode_bcApply :
    decode ⟨0x00000005, 0x80000005, 0, clearBlock.toList⟩ = .ok (.bcApply 0x80000005 clearBlock) := by decide
theorem test_decode_ftNew : decode ⟨0x00000006, 0xFFFFFFFF, 0, []⟩ = .ok (.ftNew 0xFFFFFFFF) := by decide
theorem test_decode_ftGetIndex : decode ⟨0x00000007, 0, 0, []⟩ = .ok .ftGetIndex := by decide
theorem test_decode_ftSetIndex : decode ⟨0x00000008, 0x80000005, 0, []⟩ = .ok (.ftSetIndex 0x80000005) := by decide
theorem test_decode_ftGetTag : decode ⟨0x00000009, 0, 0, []⟩ = .ok .ftGetTag := by decide
theorem test_decode_ftSetTag : decode ⟨0x0000000A, 0x00000003, 0, []⟩ = .ok (.ftSetTag 3) := by decide
theorem test_decode_ftTagBits : decode ⟨0x0000000B, 0, 0, []⟩ = .ok .ftTagBits := by decide
theorem test_decode_frNew : decode ⟨0x0000000C, 0, 0, []⟩ = .ok .frNew := by decide
theorem test_decode_frAsBytes : decode ⟨0x0000000D, 0, 0, []⟩ = .ok .frAsBytes := by decide
theorem test_decode_frLoadBytes :
    decode ⟨0x0000000E, 0, 0, List.replicate 31 0 ++ [7]⟩ = .ok (.frLoadBytes ((Vector.replicate 32 0).set 31 7)) := by
  decide
theorem test_decode_frCipher : decode ⟨0x0000000F, 0, 0, []⟩ = .ok .frCipher := by decide
theorem test_decode_frSetPayload :
    decode ⟨0x00000010, 0x00000006, 0xCAFEBABE, []⟩ = .ok (.frSetPayload 6 0xCAFEBABE) := by decide
theorem test_decode_frGetPayload : decode ⟨0x00000011, 0xFFFFFFFF, 0, []⟩ = .ok (.frGetPayload 0xFFFFFFFF) := by decide

/-- V-EX-1 to V-EX-6 and the table's last code: the illegal encodings by name. -/
theorem test_decode_illegal :
    decode ⟨0x00000000, 0, 0, []⟩ = .error .reservedOperation ∧ decode ⟨0x00000012, 0, 0, []⟩ = .error .reservedOperation ∧
    decode ⟨0x0000001F, 0, 0, []⟩ = .error .reservedOperation ∧
    decode ⟨0x0000002C, 0, 0, []⟩ = .error .widthOnOtherOperation ∧ decode ⟨0x0000008C, 0, 0, []⟩ = .error .reservedBits ∧
    decode ⟨0x80000042, 0, 0, []⟩ = .error .reservedBits := by decide

/-- A table word is read with zero data bytes and bits above the given ones 0. -/
theorem test_decodeTableWord :
    decodeTableWord 32 0x42 = some (.ksSubkey .w32 0 0) ∧
    decodeTableWord 96 0xCAFEBABE0000000600000010 = some (.frSetPayload 6 0xCAFEBABE) ∧
    decodeTableWord 32 0x05 = some (.bcApply 0 (Vector.replicate 28 0)) ∧ decodeTableWord 32 0x12 = none := by decide

/-- A placed command is the next one to run. -/
theorem test_withFetchWord : answer (step (State.reset.withFetchWord 32 0x0B)) = some ⟨.ok, .scalar 1⟩ := by decide

/-! ## KeyStore -/

/-- V-KS-1. -/
theorem test_ksLoad_k32 :
    let t := after (exec (.ksLoad (counting 32)) State.reset)
    t.keyLen = 32 ∧ t.ksValid = true ∧ readByte t.key 31 = .ok 31 ∧ t.outputs = [⟨.ok, .noResult⟩] := by decide

/-- V-KS-15, V-KS-2: 30 bytes are no key, and a second key is refused without a fault. -/
theorem test_ksLoad_refused :
    after (exec (.ksLoad (counting 30)) State.reset) = State.reset.latched .invalidKeyLength 1 ∧
    after (exec (.ksLoad (counting 32)) (loaded 32 0)) = (loaded 32 0).answered .keyLocked .noResult := by decide

/-- V-KS-3, V-KS-4, V-KS-5, V-KS-20, V-KS-6, V-KS-8, V-KS-9, V-KS-13: windows, and the checks in their order. -/
theorem test_ksSubkey_windows :
    answer (exec (.ksSubkey .w32 1 1) (loaded 32 0)) = some ⟨.ok, .words 32 [0x07060504]⟩ ∧
    answer (exec (.ksSubkey .w16 1 2) (loaded 32 0)) = some ⟨.ok, .words 16 [0x0302, 0x0504]⟩ ∧
    answer (exec (.ksSubkey .w8 30 2) (loaded 32 0)) = some ⟨.ok, .words 8 [0x1E, 0x1F]⟩ ∧
    answer (exec (.ksSubkey .w32 8 0) (loaded 32 0)) = some ⟨.ok, .words 32 []⟩ ∧
    answer (exec (.ksSubkey .w32 0 9) (loaded 32 0)) = some ⟨.subkeyTooLarge, .noResult⟩ ∧
    answer (exec (.ksSubkey .w32 5 4) (loaded 32 0)) = some ⟨.offsetOutOfRange, .noResult⟩ := by
  unfold exec execKsSubkey perform ksSubkeyBody Config.keyAlign
  generalize Config.keyAlignment = a
  cases a <;> decide

/-- V-KS-11, V-KS-12, V-KS-19: the 64-bit view, for each value of KEY_ALIGN. -/
theorem test_ksSubkey_w64 :
    (Config.keyAlignment = .four →
      answer (exec (.ksSubkey .w64 0 9) (loaded 32 0)) = some ⟨.misalignedAccess, .noResult⟩) ∧
    (Config.keyAlignment = .eight →
      answer (exec (.ksSubkey .w64 1 1) (loaded 32 0)) = some ⟨.ok, .words 64 [0x0F0E0D0C0B0A0908]⟩) := by
  unfold exec execKsSubkey perform ksSubkeyBody Config.keyAlign
  generalize Config.keyAlignment = a
  cases a <;> decide

/-! ## IndexTransform and BlockCipher -/

/-- V-IT-1, V-IT-2. -/
theorem test_itConfig :
    after (exec (.itConfig 0xDEADBEEF 1) State.reset) =
      { State.reset with mask := 0xDEADBEEF, hashSel := .custom, itValid := true, outputs := [⟨.ok, .noResult⟩] } ∧
    after (exec (.itConfig 0 2) State.reset) = State.reset.answered .badOperand .noResult := by decide

/-- V-IT-5, V-IT-7, V-IT-8a, V-IT-8b. -/
theorem test_itOffset_k32 :
    answer (exec (.itOffset 7 4) (loaded 32 0)) = some ⟨.ok, .scalar 2⟩ ∧
    answer (exec (.itOffset 5 7) (loaded 32 3)) = some ⟨.ok, .scalar 0⟩ ∧
    answer (exec (.itOffset 8 0) (loaded 32 0)) = some ⟨.ok, .scalar 8⟩ ∧
    answer (exec (.itOffset 5 9) (loaded 32 0)) = some ⟨.noValidOffset, .noResult⟩ := by decide

/-- V-IT-13, V-IT-15: the concrete key length; the hashed index is unsigned. -/
theorem test_itOffset_k53280 :
    answer (exec (.itOffset 5 7) { loaded 0 0xDEADBEEF with keyLen := 53280 }) = some ⟨.ok, .scalar 6840⟩ ∧
    answer (exec (.itOffset 0x7FFFFFFF 7) { loaded 0 0x80000000 with keyLen := 53280 }) = some ⟨.ok, .scalar 4035⟩ := by
  decide

/-- V-BC-1. -/
theorem test_bcApply : after (exec (.bcApply 5 clearBlock) sender) = sender.answered .ok (.bytes cipheredBlock.toList) := by
  decide

/-- V-BC-8. -/
theorem test_bcApply_short_key : after (exec (.bcApply 0 clearBlock) (loaded 24 0)) = (loaded 24 0).latched .noValidOffset 4 := by
  decide

/-! ## FrameTag -/

/-- V-FT-2: the tag bit of a new tag word is 0. -/
theorem test_ftNew : after (exec (.ftNew 0xFFFFFFFF) sender) = { sender with fw := clearFrame.set 0 0x7FFFFFFF }.answered .ok .noResult := by
  decide

/-- V-FT-3, V-FT-12. -/
theorem test_ftGetIndex :
    answer (exec .ftGetIndex { State.reset with fw := clearFrame.set 0 0x80000005 }) = some ⟨.ok, .scalar 5⟩ ∧
    answer (exec .ftGetIndex { State.reset with fw := clearFrame.set 0 0xFFFFFFFF }) = some ⟨.ok, .scalar 0x7FFFFFFF⟩ := by
  decide

/-- V-FT-9, V-FT-10. -/
theorem test_ftSetIndex :
    (after (exec (.ftSetIndex 0xFFFFFFFF) { State.reset with fw := clearFrame.set 0 0x80000000 })).fw[0] = 0xFFFFFFFF ∧
    (after (exec (.ftSetIndex 0x80000005) { State.reset with fw := clearFrame.set 0 7 })).fw[0] = 5 := by decide

/-- V-FT-4, V-FT-5. -/
theorem test_ftGetTag :
    answer (exec .ftGetTag { State.reset with fw := clearFrame.set 0 0x80000005 }) = some ⟨.ok, .scalar 1⟩ ∧
    answer (exec .ftGetTag { State.reset with fw := clearFrame.set 0 0x7FFFFFFF }) = some ⟨.ok, .scalar 0⟩ := by decide

/-- V-FT-7, V-FT-8. -/
theorem test_ftSetTag :
    (after (exec (.ftSetTag 2) { State.reset with fw := clearFrame.set 0 0x80000005 })).fw[0] = 5 ∧
    (after (exec (.ftSetTag 0xFFFFFFFF) { State.reset with fw := clearFrame })).fw[0] = 0x80000005 := by decide

/-- V-FT-11. -/
theorem test_ftTagBits : answer (exec .ftTagBits sender) = some ⟨.ok, .scalar 1⟩ := by decide

/-! ## Frame -/

/-- V-FR-13. -/
theorem test_frNew : after (exec .frNew sender) = (loaded 32 0).answered .ok .noResult := by decide

/-- V-FR-2. -/
theorem test_frAsBytes : answer (exec .frAsBytes sender) =
    some ⟨.ok, .bytes [5, 0, 0, 0, 0, 0, 0, 0, 1, 0, 0, 0, 2, 0, 0, 0, 3, 0, 0, 0, 4, 0, 0, 0, 5, 0, 0, 0, 6, 0, 0, 0]⟩ := by
  decide

/-- V-FR-3. -/
theorem test_frLoadBytes :
    (after (exec (.frLoadBytes ⟨([5, 0, 0, 0x80] ++ List.replicate 28 (0xFF : Byte)).toArray, by decide⟩) sender)).fw =
      (Vector.replicate 8 0xFFFFFFFF).set 0 0x80000005 := by decide

/-- V-FR-7: the cipher toggles. -/
theorem test_frCipher :
    after (exec .frCipher sender) = { sender with fw := cipheredFrame }.answered .ok .noResult ∧
    (after (exec .frCipher { sender with fw := cipheredFrame })).fw = clearFrame := by decide

/-- V-FR-8 and V-FR-9: another mask; the tag bit takes no part. -/
theorem test_frCipher_mask_and_tag :
    (after (exec .frCipher { sender with mask := 3 })).fw =
      #v[5, 0x03020100, 0x07060505, 0x0B0A090A, 0x0F0E0D0F, 0x13121114, 0x17161511, 0x1B1A191E] ∧
    (after (exec .frCipher { sender with fw := clearFrame.set 0 0x80000005 })).fw = cipheredFrame.set 0 0x80000005 := by
  decide

/-- V-FR-4, V-FR-5. -/
theorem test_frSetPayload :
    (after (exec (.frSetPayload 6 0xCAFEBABE) sender)).fw = clearFrame.set 7 0xCAFEBABE ∧
    after (exec (.frSetPayload 7 1) sender) = sender.answered .badOperand .noResult := by decide

/-- V-FR-14, V-FR-6. -/
theorem test_frGetPayload :
    answer (exec (.frGetPayload 2) sender) = some ⟨.ok, .scalar 2⟩ ∧
    after (exec (.frGetPayload 0xFFFFFFFF) sender) = sender.answered .badOperand .noResult := by decide

/-! ## The step, reset, and the written form -/

/-- V-EX-8: a latched fault is answered before an illegal command is looked at; V-EX-14: reset clears it. -/
theorem test_fault_then_reset :
    answer (step (issuing faulted ⟨0, 0, 0, []⟩)) = some ⟨.faulted, .noResult⟩ ∧
    after (step { faulted with inputs := [.reset] }) = State.reset := by decide

/-- Forms as in 30_encoding.md R71 and the words of R73. -/
theorem test_written :
    written (.ksSubkey .w32 1 1) = "KS_SUBKEY.w32 1, 1" ∧ written (.itConfig 10 0) = "IT_CONFIG 10, identity" ∧
    written (.ksLoad [0, 0x1F]) = "KS_LOAD [00 1f]" ∧
    writtenWords (encode (.ksSubkey .w32 1 1)) = "00000042 00000001 00000001" := by decide

/-! ## Witnesses: for every statement with hypotheses, a concrete case that meets them -/

/-- DecodeOfEncodeIsTheInstruction, DecodeAcceptsExactlyTheOpcodeTable, DecodedInstructionsAreWellFormed. -/
theorem witness_encoding :
    (Instr.ksLoad []).wellFormed = true ∧ (Instr.ksLoad (counting 32)).wellFormed = true ∧
    decode ⟨0x62, 1, 2, []⟩ = .ok (.ksSubkey .w64 1 2) ∧
    (∃ r ∈ opcodeTable, (⟨0x62, 1, 2, []⟩ : Command).matchesRow r = true) ∧
    (∀ r ∈ opcodeTable, (⟨0x12, 0, 0, []⟩ : Command).matchesRow r = false) := by decide

/-- UnusedOperandsAreIgnored: pairs of commands that differ only in what FR_NEW, FT_NEW and KS_LOAD do not use; the
surplus byte beside KS_LOAD's two is the model's choice (log 6). -/
theorem witness_UnusedOperandsAreIgnored :
    decode ⟨0x0C, 1, 2, [3]⟩ = decode ⟨0x0C, 4, 5, []⟩ ∧ decode ⟨0x06, 9, 2, [3]⟩ = decode ⟨0x06, 9, 5, []⟩ ∧
    decode ⟨0x01, 2, 2, [3, 4, 5]⟩ = decode ⟨0x01, 2, 5, [3, 4]⟩ ∧
    (usesArg0 0x01 = true ∧ usesArg1 0x01 = false ∧ samples 0x01 2 = 2 ∧ [3, 4, 5].take 2 = [3, 4]) ∧
    (usesArg0 0x05 = true ∧ samples 0x05 9 = clearBlock.toList.length ∧ samples 0x0E 0 = 32) := by decide

/-- StepRunsTheDecodedCommand, IllegalCommandDoesNothing, IllegalEncodingsAreTheReservedOnes,
LatchedFaultAnswersEveryCommand: a host that issues FR_CIPHER, the boundary codes, and a latched fault. -/
theorem witness_commands :
    ((issuing sender ⟨0x0F, 0, 0, []⟩).inputs = .command ⟨0x0F, 0, 0, []⟩ :: [] ∧ decode ⟨0x0F, 0, 0, []⟩ = .ok .frCipher) ∧
    ((issuing sender ⟨0x80, 0, 0, []⟩).fault = 0 ∧ decode ⟨0x80, 0, 0, []⟩ = .error .reservedBits) ∧
    ((0x12 : Word).toNat % 32 = 0x12 ∧ (0x1F : Word).toNat % 32 = 0x1F ∧ (0x2C : Word).toNat / 32 % 4 ≠ 0 ∧
      (0x2C : Word).toNat % 32 ≠ 2 ∧ (0x80 : Word).toNat / 128 ≠ 0 ∧ (0x11 : Word).toNat % 32 < 0x12) ∧
    (issuing faulted ⟨0x0F, 0, 0, []⟩).fault ≠ 0 := by decide

theorem witness_UnconfiguredOperationsAreRefused :
    (State.reset.fault = 0 ∧ State.reset.ksValid = false) ∧
    ({ loaded 32 0 with itValid := false }.fault = 0 ∧ { loaded 32 0 with itValid := false }.ksValid = true) ∧
    after (exec .frCipher { loaded 32 0 with itValid := false }) =
      { loaded 32 0 with itValid := false }.answered .notConfigured .noResult := by decide

/-- ResetInputGivesResetValues, IdleStepKeepsTheState. -/
theorem witness_reset_and_idle :
    { faulted with inputs := [.reset] }.inputs = .reset :: [] ∧ State.reset.inputs = [] ∧ sender.inputs = [] := by decide

/-- StepKeepsTheInvariant, StepNeverStops, OnlyResetClearsFaultAndFlags: reset, a configured state, and a state with a
latched fault meet the invariant, and each takes a step. -/
theorem witness_invariant :
    State.reset.inv ∧ sender.inv ∧ faulted.inv ∧ isNext (step (issuing sender ⟨0x0F, 0, 0, []⟩)) = true ∧
    isNext (step (issuing faulted ⟨0x0F, 0, 0, []⟩)) = true :=
  ⟨by decide, by decide, by decide, by decide, by decide⟩

/-- The key changes by a first KS_LOAD and by reset. -/
theorem witness_KeyChangesOnlyByFirstLoadOrReset :
    (after (step (issuing State.reset ⟨1, 4, 0, [9, 9, 9, 9]⟩))).key ≠ State.reset.key ∧
    isNext (step (issuing State.reset ⟨1, 4, 0, [9, 9, 9, 9]⟩)) = true ∧ State.reset.ksValid = false ∧
    decode ⟨1, 4, 0, [9, 9, 9, 9]⟩ = .ok (.ksLoad [9, 9, 9, 9]) ∧
    (after (step { sender with inputs := [.reset] })).key ≠ sender.key := by decide

/-- EveryFailureIsPrecise, StatusesComeOnlyFromTheirOperations: a completion, a fatal failure and one that is not
fatal. -/
theorem witness_outcomes :
    exec .frCipher sender = .next (after (exec .frCipher sender)) ∧
    exec .frCipher (loaded 24 0) = .next ((loaded 24 0).latched .noValidOffset 4) ∧
    exec .frCipher State.reset = .next (State.reset.answered .notConfigured .noResult) :=
  ⟨next_after (by decide), rfl, rfl⟩

theorem witness_ReadingOperationsChangeNothing :
    readsOnly .frAsBytes = true ∧ exec .frAsBytes sender = .next (after (exec .frAsBytes sender)) ∧
    (after (exec .frAsBytes sender)).outputs = sender.outputs ++ [⟨.ok, .bytes (bytesOfWords clearFrame.toList)⟩] :=
  ⟨rfl, next_after (by decide), by decide⟩

/-- PerMessageOperationsCannotFail, ConfiguredCoreAnswersEveryMessageList: a key of exactly BLOCK_BYTES
is enough, and the sender flow is a list of per-message operations. -/
theorem witness_ready :
    (loaded 28 0x12345678).ready ∧ sender.ready ∧ (∀ i ∈ pseudoFrSend 5 #v[0, 1, 2, 3, 4, 5, 6], perMessage i = true) ∧
    { sender with inputs := commandsOf (pseudoFrSend 5 #v[0, 1, 2, 3, 4, 5, 6]) }.ready :=
  ⟨⟨by decide, by decide⟩, ⟨by decide, by decide⟩, by decide, ⟨by decide, by decide⟩⟩

/-- Two different states that no host can tell apart. -/
theorem witness_UnspecifiedValuesAreNeverObserved :
    State.reset.sameVisible { State.reset with key := [(7, 7)], keyLen := 0, mask := 0 } ∧
    (loaded 32 0).sameVisible { loaded 32 0 with key := (loaded 40 0).key } := by decide

theorem witness_KsLoadStoresTheBlobOnce :
    (State.reset.fault = 0 ∧ State.reset.ksValid = false) ∧ ((loaded 32 0).fault = 0 ∧ (loaded 32 0).ksValid = true) ∧
    (([] : List Byte).length % 4 = 0 ∧ ([] : List Byte).length ≤ 53280) ∧
    ((List.replicate 53280 (0 : Byte)).length % 4 = 0 ∧ (List.replicate 53280 (0 : Byte)).length ≤ 53280) ∧
    (List.replicate 2 (0 : Byte)).length % 4 ≠ 0 ∧ 53280 < (List.replicate 53284 (0 : Byte)).length := by
  simp only [List.length_replicate]; decide

/-- V-KS-7 to V-KS-10 and V-KS-20 in numbers: the window at the end, one word too long, one word too far. -/
theorem witness_KsSubkeyReturnsTheWindow :
    ((loaded 32 0).fault = 0 ∧ (loaded 32 0).ksValid = true ∧ (loaded 32 0).keyReady) ∧
    (loaded 32 0).keyLen.toNat / (WordWidth.w32.bits / 8) = 8 ∧
    ¬ Config.keyAlign < WordWidth.w32.bits / 8 ∧
    ((0 : Word).toNat + (8 : Word).toNat = 8 ∧ 8 < (9 : Word).toNat ∧ 8 < (5 : Word).toNat + (4 : Word).toNat ∧
      8 < (9 : Word).toNat + (0 : Word).toNat) := by
  unfold Config.keyAlign
  generalize Config.keyAlignment = a
  cases a <;> decide

/-- The first case of KS_SUBKEY: the 64-bit view is the only one that can be misaligned. -/
theorem witness_MisalignedAccess : Config.keyAlignment = .four → Config.keyAlign < WordWidth.w64.bits / 8 := by
  unfold Config.keyAlign
  generalize Config.keyAlignment = a
  cases a <;> decide

theorem witness_ItConfigSetsMaskAndHash :
    State.reset.fault = 0 ∧ (0 : Word).toNat = 0 ∧ (1 : Word).toNat = 1 ∧ 1 < (2 : Word).toNat ∧
    1 < (0xFFFFFFFF : Word).toNat := by decide

/-- K32: L = total_words is the longest length with an offset. -/
theorem witness_ItOffsetReducesTheHashedIndex :
    (loaded 32 0).configured ∧ (8 : Word).toNat ≤ (loaded 32 0).keyLen.toNat / 4 ∧
    (loaded 32 0).keyLen.toNat / 4 < (9 : Word).toNat := by decide

theorem witness_OffsetsSelectWindowsInBounds :
    (loaded 32 0).inv ∧ exec (.itOffset 7 4) (loaded 32 0) = .next (after (exec (.itOffset 7 4) (loaded 32 0))) ∧
    (after (exec (.itOffset 7 4) (loaded 32 0))).outputs = (loaded 32 0).outputs ++ [⟨.ok, .scalar 2⟩] :=
  ⟨by decide, next_after (by decide), by decide⟩

/-- V-IT-9: K32, mask 3, L = 4, max_index 5, b = 3. -/
theorem witness_IdentitySweepVisitsEveryOffset :
    (loaded 32 3).configured ∧ (loaded 32 3).hashSel = .identity ∧ (4 : Word).toNat ≤ (loaded 32 3).keyLen.toNat / 4 ∧
    (loaded 32 3).keyLen.toNat / 4 - (4 : Word).toNat + 1 ≤ 2 ^ 3 ∧
    4 < (loaded 32 3).keyLen.toNat / 4 - (4 : Word).toNat + 1 := by decide

/-- BcApplyXorsTheKeyBytes, FrCipherXorsThePayload, ShortKeysHaveNoValidOffset: a key of exactly 28 bytes is long
enough, one of 24 is too short. -/
theorem witness_cipher_keys :
    ((loaded 28 0).configured ∧ (loaded 28 0).keyReady ∧ 28 ≤ (loaded 28 0).keyLen.toNat) ∧
    ((loaded 24 0).configured ∧ (loaded 24 0).keyLen.toNat / 4 < 7) ∧
    ((loaded 28 0).configured ∧ (loaded 28 0).keyLen.toNat / 4 < (8 : Word).toNat) := by decide

theorem witness_BcApplyIsAnInvolution :
    exec (.bcApply 5 clearBlock) sender = .next (sender.answered .ok (.bytes cipheredBlock.toList)) :=
  (next_after (by decide)).trans (congrArg _ (by decide))

/-- The FT and FR statements, TagWordFieldsAreIsolated: the tag and frame operations need only that no fault
is latched; the last payload word, and the first number beyond. -/
theorem witness_frame_operands :
    State.reset.fault = 0 ∧ (6 : Word).toNat < 7 ∧ 7 ≤ (7 : Word).toNat ∧ 7 ≤ (0xFFFFFFFF : Word).toNat ∧
    (0x7FFFFFFF : Word).toNat < 2 ^ 31 ∧ ¬ (0x80000000 : Word).toNat < 2 ^ 31 := by decide

theorem witness_FrameBytesRoundTrip :
    exec (.frLoadBytes (Vector.replicate 32 7)) sender = .next (after (exec (.frLoadBytes (Vector.replicate 32 7)) sender)) ∧
    exec .frAsBytes sender = .next (after (exec .frAsBytes sender)) ∧
    (∃ out : Vector Byte 32, (after (exec .frAsBytes sender)).outputs = sender.outputs ++ [⟨.ok, .bytes out.toList⟩]) :=
  ⟨next_after (by decide), next_after (by decide), ⟨(bytesOfWords clearFrame.toList).toArray, by decide⟩, by decide⟩

theorem witness_FrCipherIsAnInvolution :
    exec .frCipher sender = .next ({ sender with fw := cipheredFrame }.answered .ok .noResult) ∧
    ({ sender with fw := cipheredFrame }.answered .ok .noResult).outputs = sender.outputs ++ [⟨.ok, .noResult⟩] :=
  ⟨(next_after (by decide)).trans (congrArg _ (by decide)), rfl⟩

/-- A sender and a receiver after reset and SETUP with the same key and mask; the wire bytes are those of program P1. -/
theorem witness_ReceiverRecoversTheSendersFrame :
    (loaded 32 0).configured ∧ (loaded 32 0).keyLen = sender.keyLen ∧ (loaded 32 0).mask = sender.mask ∧
    (loaded 32 0).hashSel = sender.hashSel ∧
    (∀ a < sender.keyLen.toNat, readByte (loaded 32 0).key a = readByte sender.key a) ∧
    answer (exec .frAsBytes (after (exec .frCipher sender))) = some ⟨.ok, .bytes ([5, 0, 0, 0] ++ cipheredBlock.toList)⟩ ∧
    isNext (exec (.frLoadBytes ⟨([5, 0, 0, 0] ++ cipheredBlock.toList).toArray, by decide⟩) (loaded 32 0)) = true := by
  decide

theorem witness_TagBitTakesNoPartInCiphering :
    (0x80000005 : Word).toNat % 2 ^ 31 = sender.fw[0].toNat % 2 ^ 31 ∧
    exec .frCipher sender = .next ({ sender with fw := cipheredFrame }.answered .ok .noResult) :=
  ⟨by decide, (next_after (by decide)).trans (congrArg _ (by decide))⟩

end Sys2Proof.Tests
end

section
/-! The step taken on a command that decodes, and the static constraints on the parameters
(00_scope.md R6, R7, R8). -/

namespace Sys2Proof.Config

/-- The configured word width is never misaligned (R6 f): KEY_ALIGN is open, but both values it may have suffice. -/
theorem wordBytes_le_bytes (a : KeyAlign) : wordBytes ≤ a.bytes := by
  cases a with
  | four => exact Nat.le_refl 4
  | eight => exact Nat.le_add_right 4 4

theorem wordBytes_le_keyAlign : wordBytes ≤ keyAlign :=
  wordBytes_le_bytes keyAlignment

end Sys2Proof.Config

namespace Sys2Proof.Machine

theorem State.popInput_eq_of_inputs {s : State} {x : Input} {rest : List Input} (h : s.inputs = x :: rest) :
    s.popInput = { s with inputs := rest } := by
  simp only [State.popInput, h, List.tail_cons]

theorem State.arrival_of_decode_ok {s : State} {c : Command} {rest : List Input} {i : Instr}
    (h : s.inputs = .command c :: rest) (hd : decode c = .ok i) : s.arrival = .operation i := by
  simp only [State.arrival, h, hd]

theorem step_of_arrival_operation {s : State} {i : Instr} (h : s.arrival = .operation i) :
    step s = exec i s.popInput := by
  simp only [step, h]

/-- Settles O6: the command arrives as the operation it decodes to, and what runs it has the rest of the queue. -/
theorem stepRunsTheDecodedCommand : Obligations.StepRunsTheDecodedCommand := by
  intro s c rest i hinputs hdecode
  calc step s = exec i s.popInput := step_of_arrival_operation (State.arrival_of_decode_ok hinputs hdecode)
    _ = exec i { s with inputs := rest } := by rw [State.popInput_eq_of_inputs hinputs]

/-- Settles O28: (f) is the one constraint on the open parameter; the others are arithmetic on the fixed values. -/
theorem parametersMeetTheStaticConstraints : Obligations.ParametersMeetTheStaticConstraints := by
  unfold Obligations.ParametersMeetTheStaticConstraints
  refine ⟨?wordWidth, ?blockWords, ?frameBytes, ?tagWord, ?tagBits, Config.wordBytes_le_keyAlign, ?keyWords,
    ?indexBits⟩
  case wordWidth => decide
  case blockWords => decide
  case frameBytes => decide
  case tagWord => rfl
  case tagBits => decide
  case keyWords => decide
  case indexBits => decide

end Sys2Proof.Machine
end

section
/-! What a command and a reset do to the invariant, the fault latch and the valid flags (10_state.md R36, R37;
60_exceptions.md R157, R163). -/

namespace Sys2Proof.Machine

/-! ## What an operation that completes leaves -/

/-- The state a KS_LOAD that completes leaves (40_keystore.md R80). -/
def State.withKey (s : State) (kdata : List Byte) : State :=
  { s with key := writeCells s.key 0 kdata, keyLen := BitVec.ofNat 32 kdata.length, ksValid := true }

/-- The state with another frame: what an operation on the frame registers leaves (10_state.md R21). -/
def State.withFrame (s : State) (f : Vector Word 8) : State := { s with fw := f }

/-- The state an IT_CONFIG that completes leaves (41_index_transform.md R90). -/
def State.withTransform (s : State) (mask : Word) (h : HashSel) : State :=
  { s with mask := mask, hashSel := h, itValid := true }

/-- What a pseudocode that completes may leave of the state: a first key, a transform, or the state with a frame (its
own one, for an operation that only reads). -/
inductive State.Completes (s : State) : State → Prop
  | key (kdata : List Byte) (unloaded : s.ksValid = false) (whole : kdata.length % 4 = 0)
      (fits : kdata.length ≤ 53280) : s.Completes (s.withKey kdata)
  | transform (mask : Word) (h : HashSel) : s.Completes (s.withTransform mask h)
  | frame (f : Vector Word 8) : s.Completes (s.withFrame f)

theorem State.completes_self (s : State) : s.Completes s := .frame s.fw

/-- The valid flags as the operations that raise a fatal status find them (60_exceptions.md R141 to R145); the other
statuses are raised whatever the flags are. -/
def Status.flagsFit (s : State) : Status → Prop
  | .invalidKeyLength => s.ksValid = false
  | .subkeyTooLarge | .misalignedAccess | .offsetOutOfRange => s.ksValid = true
  | .noValidOffset => s.ksValid = true ∧ s.itValid = true
  | _ => True

/-- A legal end of a pseudocode: a completion, or a status that fits the valid flags; of a stop nothing is said. -/
def State.MayEnd (s : State) : Attempt (State × Result) → Prop
  | .ok (t, _) => s.Completes t
  | .error (.status S) => S.flagsFit s
  | .error (.fault _) => True

theorem State.mayEnd_of_eq {s : State} {a b : Attempt (State × Result)} (h : a = b) (hb : s.MayEnd b) : s.MayEnd a :=
  h ▸ hb

theorem Needs.met_key {s : State} : Needs.key.met s = true ↔ s.ksValid = true := Iff.rfl

theorem Needs.met_keyAndTransform {s : State} :
    Needs.keyAndTransform.met s = true ↔ s.ksValid = true ∧ s.itValid = true := Bool.and_eq_true_iff

/-- Everything the pseudocode of an operation can end in, once its valid flags are checked. -/
theorem bodyOf_mayEnd {i : Instr} {s : State} (hn : (needsOf i).met s = true) : s.MayEnd (bodyOf i s) := by
  have self := s.completes_self
  cases i with
  | ksLoad kdata =>
    rcases ksLoadBody_cases kdata s with ⟨-, hb⟩ | ⟨hv, -, hb⟩ | ⟨hv, hmod, hlen, hb⟩
    · exact State.mayEnd_of_eq hb trivial
    · exact State.mayEnd_of_eq hb hv
    · exact State.mayEnd_of_eq hb (.key kdata hv hmod hlen)
  | ksSubkey w off len =>
    have hv : s.ksValid = true := Needs.met_key.1 hn
    rcases ksSubkeyBody_cases w off len s with ⟨-, hb⟩ | ⟨-, -, hb⟩ | ⟨-, -, -, hb⟩ |
      ⟨-, -, ⟨ws, -, hb⟩ | ⟨e, -, hb, -⟩⟩
    · exact State.mayEnd_of_eq hb hv
    · exact State.mayEnd_of_eq hb hv
    · exact State.mayEnd_of_eq hb hv
    · exact State.mayEnd_of_eq hb self
    · exact State.mayEnd_of_eq hb trivial
  | itConfig mask sel =>
    rcases itConfigBody_cases mask sel s with ⟨-, hb⟩ | ⟨-, hb⟩ | ⟨-, hb⟩
    · exact State.mayEnd_of_eq hb (.transform mask .identity)
    · exact State.mayEnd_of_eq hb (.transform mask .custom)
    · exact State.mayEnd_of_eq hb trivial
  | itOffset index len =>
    rcases itOffsetBody_cases index len s with ⟨-, hb⟩ | ⟨-, hb⟩
    · exact State.mayEnd_of_eq hb (Needs.met_keyAndTransform.1 hn)
    · exact State.mayEnd_of_eq hb self
  | bcApply index block =>
    rcases bcApplyBody_cases index block s with ⟨-, hb⟩ | ⟨-, ⟨out, -, hb⟩ | ⟨e, hb, -⟩⟩
    · exact State.mayEnd_of_eq hb (Needs.met_keyAndTransform.1 hn)
    · exact State.mayEnd_of_eq hb self
    · exact State.mayEnd_of_eq hb trivial
  | frCipher =>
    rcases frCipherBody_cases s with ⟨-, hb⟩ | ⟨-, ⟨out, -, hb⟩ | ⟨e, hb, -⟩⟩
    · exact State.mayEnd_of_eq hb (Needs.met_keyAndTransform.1 hn)
    · exact State.mayEnd_of_eq hb (.frame _)
    · exact State.mayEnd_of_eq hb trivial
  | frSetPayload n value =>
    rcases frSetPayloadBody_cases n value s with ⟨_, hb⟩ | ⟨-, hb⟩
    · exact State.mayEnd_of_eq hb (.frame _)
    · exact State.mayEnd_of_eq hb trivial
  | frGetPayload n =>
    rcases frGetPayloadBody_cases n s with ⟨_, hb⟩ | ⟨-, hb⟩
    · exact State.mayEnd_of_eq hb self
    · exact State.mayEnd_of_eq hb trivial
  | ftNew | ftSetIndex | ftSetTag | frNew | frLoadBytes => exact .frame _
  | ftGetIndex | ftGetTag | ftTagBits | frAsBytes => exact self

/-- Everything an operation that gives a next state has done: completed, without a latched fault, or raised a status
that fits the valid flags. -/
theorem exec_eq_next {i : Instr} {s t : State} (h : exec i s = .next t) :
    (s.fault = 0#4 ∧ ∃ u r, s.Completes u ∧ t = u.complete r) ∨ (∃ S : Status, S.flagsFit s ∧ t = s.raise S) := by
  rw [exec_eq_perform] at h
  rcases perform_eq_next h with ⟨hf, hn, u, r, hb, ht⟩ | ⟨S, ht, ⟨-, hS⟩ | ⟨-, -, hS⟩ | ⟨-, hn, hb⟩⟩
  · exact .inl ⟨hf, u, r, State.mayEnd_of_eq hb.symm (bodyOf_mayEnd hn), ht⟩
  · exact .inr ⟨S, hS ▸ trivial, ht⟩
  · exact .inr ⟨S, hS ▸ trivial, ht⟩
  · exact .inr ⟨S, State.mayEnd_of_eq hb.symm (bodyOf_mayEnd hn), ht⟩

/-! ## The fault latch (60_exceptions.md R150) -/

theorem latchFault_of_latched {fault : BitVec 4} (h : fault ≠ 0#4) (S : Status) : latchFault fault S = fault :=
  if_neg fun hS => h hS.2

theorem latchConsistent_of_no_fault {s : State} (h : s.fault = 0#4) : s.latchConsistent := by
  simp [State.latchConsistent, h]

/-- What a status that fits the flags leaves in the latch fits them too: the code of a first fatal status, or what was
there. -/
theorem latchConsistent_raise {s : State} {S : Status} (h : s.latchConsistent) (hfit : S.flagsFit s) :
    (s.raise S).latchConsistent := by
  by_cases hlatch : S.fatal = true ∧ s.fault = 0#4
  · have hcode : latchFault s.fault S = S.code := if_pos hlatch
    cases S with
    | invalidKeyLength | subkeyTooLarge | misalignedAccess | noValidOffset | offsetOutOfRange =>
      simpa [State.latchConsistent, hcode, Status.code, Status.flagsFit] using hfit
    | _ => cases hlatch.1
  · have hkept : latchFault s.fault S = s.fault := if_neg hlatch
    simpa only [State.latchConsistent, State.raise_fault, State.raise_ksValid, State.raise_itValid, hkept] using h

/-! ## The invariant (10_state.md R37) -/

theorem clean_append {rs : List Response} {r : Response} (h : ∀ q ∈ rs, q.clean) (hr : r.clean) :
    ∀ q ∈ rs ++ [r], q.clean := by
  simpa [or_imp, forall_and] using ⟨h, hr⟩

theorem inv_complete {s : State} (h : s.inv) (r : Result) : (s.complete r).inv := by
  obtain ⟨hwf, hkey, hlatch, hout⟩ := h
  exact ⟨hwf, hkey, hlatch, clean_append hout fun hne => absurd rfl hne⟩

theorem inv_raise {s : State} {S : Status} (h : s.inv) (hfit : S.flagsFit s) : (s.raise S).inv := by
  obtain ⟨hwf, hkey, hlatch, hout⟩ := h
  exact ⟨hwf, hkey, latchConsistent_raise hlatch hfit, clean_append hout fun _ => rfl⟩

theorem inv_applyReset {s : State} (h : ∀ r ∈ s.outputs, r.clean) : s.applyReset.inv :=
  ⟨reset_key_wf, nofun, latchConsistent_of_no_fault rfl, h⟩

theorem inv_withFrame {s : State} (h : s.inv) (f : Vector Word 8) : (s.withFrame f).inv := h

theorem inv_withTransform {s : State} (h : s.inv) (hf : s.fault = 0#4) (mask : Word) (sel : HashSel) :
    (s.withTransform mask sel).inv := by
  obtain ⟨hwf, hkey, -, hout⟩ := h
  exact ⟨hwf, hkey, latchConsistent_of_no_fault hf, hout⟩

/-- A KS_LOAD that completes leaves usable key material: every byte below KEY_LEN comes from the blob. -/
theorem keyReady_withKey {s : State} {kdata : List Byte} (hmod : kdata.length % 4 = 0) (hlen : kdata.length ≤ 53280) :
    (s.withKey kdata).keyReady := by
  have hn : (s.withKey kdata).keyLen.toNat = kdata.length := Nat.mod_eq_of_lt (by omega)
  refine ⟨hn ▸ hlen, hn ▸ hmod, fun a ha => ?_⟩
  rw [hn] at ha
  have hread := readCell_writeCells_inside s.key kdata 0 a ha
  rw [Nat.zero_add] at hread
  rw [State.withKey, hread, List.getElem?_eq_getElem ha, Option.isSome_some]

theorem inv_withKey {s : State} {kdata : List Byte} (h : s.inv) (hf : s.fault = 0#4) (hmod : kdata.length % 4 = 0)
    (hlen : kdata.length ≤ 53280) : (s.withKey kdata).inv := by
  obtain ⟨hwf, -, -, hout⟩ := h
  exact ⟨writeCells_wf hwf kdata 0 (by simpa using hlen), fun _ => keyReady_withKey hmod hlen,
    latchConsistent_of_no_fault hf, hout⟩

theorem inv_exec {i : Instr} {s t : State} (hs : s.inv) (h : exec i s = .next t) : t.inv := by
  rcases exec_eq_next h with ⟨hf, u, r, hu, rfl⟩ | ⟨S, hfit, rfl⟩
  · apply inv_complete
    cases hu with
    | key kdata hv hmod hlen => exact inv_withKey hs hf hmod hlen
    | transform mask sel => exact inv_withTransform hs hf mask sel
    | frame f => exact inv_withFrame hs f
  · exact inv_raise hs hfit

theorem State.rejectIllegal_eq_raise (s : State) : ∃ S : Status, S.flagsFit s ∧ s.rejectIllegal = s.raise S := by
  by_cases hf : s.fault = 0#4
  · exact ⟨.illegalCommand, trivial, if_neg (not_not.2 hf)⟩
  · exact ⟨.faulted, trivial, if_pos hf⟩

/-- Settles O16: a reset gives a state that meets the invariant, and a command completes or raises a status that fits
the valid flags. -/
theorem stepKeepsTheInvariant : Obligations.StepKeepsTheInvariant := by
  intro s t hs h
  have hpop : s.popInput.inv := hs
  rcases step_cases s with ⟨-, hstep⟩ | ⟨rest, -, hstep⟩ | ⟨c, rest, e, -, -, hstep⟩ | ⟨c, rest, i, -, -, hstep⟩
  · cases hstep.symm.trans h
    exact hs
  · cases hstep.symm.trans h
    obtain ⟨-, -, -, hout⟩ := hpop
    exact inv_applyReset hout
  · cases hstep.symm.trans h
    obtain ⟨S, hfit, hr⟩ := s.popInput.rejectIllegal_eq_raise
    exact hr ▸ inv_raise hpop hfit
  · exact inv_exec hpop (hstep.symm.trans h)

/-! ## What no command undoes (10_state.md R37 c, d, e) -/

/-- What a command may do to the flags and the latch: a valid flag that is 1 stays 1, and while a fault is latched only
the answers grow. -/
structure State.KeepsFlagsAndFault (s t : State) : Prop where
  ksValid : s.ksValid = true → t.ksValid = true
  itValid : s.itValid = true → t.itValid = true
  frozen : s.fault ≠ 0#4 → t = { s with outputs := t.outputs }

theorem State.keepsFlagsAndFault_raise (s : State) (S : Status) : s.KeepsFlagsAndFault (s.raise S) where
  ksValid := id
  itValid := id
  frozen hf := by rw [State.raise, latchFault_of_latched hf]

theorem exec_keepsFlagsAndFault {i : Instr} {s t : State} (h : exec i s = .next t) : s.KeepsFlagsAndFault t := by
  rcases exec_eq_next h with ⟨hf, u, r, hu, rfl⟩ | ⟨S, -, rfl⟩
  · have frozen {v : State} (hne : s.fault ≠ 0#4) : v = { s with outputs := v.outputs } := absurd hf hne
    cases hu with
    | key => exact ⟨fun _ => rfl, id, frozen⟩
    | transform => exact ⟨id, fun _ => rfl, frozen⟩
    | frame => exact ⟨id, id, frozen⟩
  · exact State.keepsFlagsAndFault_raise _ S

/-- Settles O20: an illegal command raises a status, and an operation completes only while no fault is latched. -/
theorem onlyResetClearsFaultAndFlags : Obligations.OnlyResetClearsFaultAndFlags := by
  intro s t c rest hin h
  have hpop := State.popInput_eq_of_inputs hin
  have hkeeps : s.popInput.KeepsFlagsAndFault t := by
    rcases step_cases s with ⟨hi, -⟩ | ⟨_, hi, -⟩ | ⟨_, _, e, -, -, hstep⟩ | ⟨_, _, i, -, -, hstep⟩
    · cases hi.symm.trans hin
    · cases hi.symm.trans hin
    · cases hstep.symm.trans h
      obtain ⟨S, -, hr⟩ := s.popInput.rejectIllegal_eq_raise
      exact hr ▸ State.keepsFlagsAndFault_raise _ S
    · exact exec_keepsFlagsAndFault (hstep.symm.trans h)
  rw [hpop] at hkeeps
  exact ⟨hkeeps.ksValid, hkeeps.itValid, hkeeps.frozen⟩

/-! ## The reset state (10_state.md R36) and the status outputs (R31) -/

/-- Settles O12: every item is read off the reset state; its frame register by register. -/
theorem resetStateHoldsTheResetValues : Obligations.ResetStateHoldsTheResetValues :=
  ⟨by decide, rfl, rfl, rfl, rfl, fun _ => rfl, rfl, rfl, rfl⟩

/-- Settles O13: each status output is a wire from its item of state. -/
theorem statusOutputsCopyTheState : Obligations.StatusOutputsCopyTheState :=
  fun _ => ⟨rfl, rfl, rfl⟩

/-- Settles O15: the reset state is what a reset makes of itself, with no answer given yet. -/
theorem resetMeetsTheInvariant : Obligations.ResetMeetsTheInvariant :=
  inv_applyReset (s := State.reset) nofun

end Sys2Proof.Machine
end

section
/-! What an operation reads: the key bytes below KEY_LEN, the transform, the frame, each only where the operation says so
(10_state.md R21, R24, R36; 70_reset_and_hazards.md R180). -/

namespace Sys2Proof.Machine

/-! ## What the shared reads depend on -/

/-- Two states with the same key material: KEY_LEN and the bytes below it (10_state.md R24). -/
abbrev State.sameKey (s t : State) : Prop :=
  s.keyLen = t.keyLen ∧ ∀ a < s.keyLen.toNat, readByte s.key a = readByte t.key a

/-- Two states with the same index transform: MASK and HASH_SEL (10_state.md R27, R28). -/
abbrev State.sameTransform (s t : State) : Prop := s.mask = t.mask ∧ s.hashSel = t.hashSel

theorem totalWords_congr {s t : State} (h : s.keyLen = t.keyLen) (bits : Nat) : s.totalWords bits = t.totalWords bits := by
  rw [State.totalWords, State.totalWords, h]

/-- `MemRead` sees the bytes below KEY_LEN alone (20_memory.md R46). -/
theorem memRead_congr {s t : State} (h : s.sameKey t) (a n : Nat) : s.memRead a n = t.memRead a n := by
  obtain ⟨hlen, hbytes⟩ := h
  unfold State.memRead
  rw [← hlen]
  split
  · next hb => exact readBytes_congr fun k hk => hbytes (a + k) (by omega)
  · rfl

theorem keyWord_congr {s t : State} (h : s.sameKey t) (bits j : Nat) : s.keyWord bits j = t.keyWord bits j := by
  rw [State.keyWord, State.keyWord, memRead_congr h]

theorem subkey_congr {s t : State} (h : s.sameKey t) (bits off len : Nat) :
    s.subkey bits off len = t.subkey bits off len := by
  induction len generalizing off with
  | zero => rfl
  | succ len ih => rw [State.subkey, State.subkey, keyWord_congr h, ih]

theorem offsetFor_congr {s t : State} (hlen : s.keyLen = t.keyLen) (h : s.sameTransform t) (index : Word) (len : Nat) :
    s.offsetFor index len = t.offsetFor index len := by
  obtain ⟨hmask, hsel⟩ := h
  rw [State.offsetFor, State.offsetFor, totalWords_congr hlen, hmask, hsel]

theorem bcApply_congr {s t : State} (hk : s.sameKey t) (ht : s.sameTransform t) (index : Word) (block : List Byte) :
    s.bcApply index block = t.bcApply index block := by
  simp only [State.bcApply, offsetFor_congr hk.1 ht, subkey_congr hk]

theorem fwRead_congr {s t : State} (h : s.fw = t.fw) (i : Fin 8) : s.fwRead i = t.fwRead i := by
  rw [State.fwRead, State.fwRead, h]

theorem tagw_congr {s t : State} (h : s.fw = t.fw) : s.tagw = t.tagw := fwRead_congr h 0

theorem payloadBytes_congr {s t : State} (h : s.fw = t.fw) : s.payloadBytes = t.payloadBytes := by
  have hp : s.payload = t.payload := funext fun i => fwRead_congr h i.succ
  rw [State.payloadBytes, State.payloadBytes, hp]

/-! ## Operations that only read -/

/-- A pseudocode that, in both states, keeps the state and ends alike: in one result, one status or one stop. -/
def ReadsAlike (body : State → Attempt (State × Result)) (s t : State) : Prop :=
  ∃ a : Attempt Result, body s = a.map (s, ·) ∧ body t = a.map (t, ·)

theorem ksSubkeyBody_readsAlike {s t : State} (h : s.sameKey t) (w : WordWidth) (off len : Word) :
    ReadsAlike (ksSubkeyBody w off len) s t := by
  unfold ReadsAlike ksSubkeyBody
  rw [← totalWords_congr h.1, ← subkey_congr h]
  split_ifs
  · exact ⟨raising .misalignedAccess, rfl, rfl⟩
  · exact ⟨raising .subkeyTooLarge, rfl, rfl⟩
  · exact ⟨raising .offsetOutOfRange, rfl, rfl⟩
  · cases s.subkey w.bits off.toNat len.toNat with
    | error e => exact ⟨.error e, rfl, rfl⟩
    | ok ws => exact ⟨.ok (.words w.bits ws), rfl, rfl⟩

theorem itOffsetBody_readsAlike {s t : State} (hlen : s.keyLen = t.keyLen) (h : s.sameTransform t) (index len : Word) :
    ReadsAlike (itOffsetBody index len) s t := by
  unfold ReadsAlike itOffsetBody
  rw [← offsetFor_congr hlen h]
  cases s.offsetFor index len.toNat with
  | error e => exact ⟨.error e, rfl, rfl⟩
  | ok off => exact ⟨.ok (.scalar (BitVec.ofNat 32 off)), rfl, rfl⟩

theorem bcApplyBody_readsAlike {s t : State} (hk : s.sameKey t) (ht : s.sameTransform t) (index : Word)
    (block : Vector Byte 28) : ReadsAlike (bcApplyBody index block) s t := by
  unfold ReadsAlike bcApplyBody
  rw [← bcApply_congr hk ht]
  cases s.bcApply index block.toList with
  | error e => exact ⟨.error e, rfl, rfl⟩
  | ok out => exact ⟨.ok (.bytes out), rfl, rfl⟩

theorem ftTagBitsBody_readsAlike (s t : State) : ReadsAlike ftTagBitsBody s t :=
  ⟨.ok (.scalar ftTagBitsCount), rfl, rfl⟩

theorem ftGetIndexBody_readsAlike {s t : State} (h : s.fw = t.fw) : ReadsAlike ftGetIndexBody s t :=
  ⟨.ok (.scalar (ftGetIndex s.tagw)), rfl, by rw [tagw_congr h]; rfl⟩

theorem ftGetTagBody_readsAlike {s t : State} (h : s.fw = t.fw) : ReadsAlike ftGetTagBody s t :=
  ⟨.ok (.scalar (ftGetTag s.tagw)), rfl, by rw [tagw_congr h]; rfl⟩

theorem frAsBytesBody_readsAlike {s t : State} (h : s.fw = t.fw) : ReadsAlike frAsBytesBody s t :=
  ⟨.ok (.bytes (bytesOfWords s.fw.toList)), rfl, by rw [h]; rfl⟩

theorem frGetPayloadBody_readsAlike {s t : State} (h : s.fw = t.fw) (i : Word) :
    ReadsAlike (frGetPayloadBody i) s t := by
  unfold ReadsAlike frGetPayloadBody
  cases payloadRegister i with
  | error e => exact ⟨.error e, rfl, rfl⟩
  | ok n => exact ⟨.ok (.scalar (s.fwRead n)), rfl, by rw [fwRead_congr h]; rfl⟩

/-! ## Operations outside FT and FR (10_state.md R21) -/

/-- KS_LOAD in one equation: the blob always fits where the length check has passed (R80). -/
theorem ksLoadBody_eq (kdata : List Byte) (s : State) :
    ksLoadBody kdata s =
      if s.ksValid = true then .error (.status .keyLocked)
      else if kdata.length % 4 ≠ 0 ∨ 53280 < kdata.length then .error (.status .invalidKeyLength)
      else .ok (s.withKey kdata, .noResult) := by
  rcases ksLoadBody_cases kdata s with ⟨hv, hb⟩ | ⟨hv, hbad, hb⟩ | ⟨hv, hmod, hlen, hb⟩
  · rw [hb, if_pos hv]
  · rw [hb, if_neg (by simp [hv]), if_pos hbad]
  · rw [hb, if_neg (by simp [hv]), if_neg (by omega), State.withKey]

/-- A pseudocode that neither reads nor writes the frame: with another frame it ends alike and leaves that frame. -/
def IgnoresFrame (body : State → Attempt (State × Result)) (s : State) (f : Vector Word 8) : Prop :=
  body (s.withFrame f) = (body s).map fun p => (p.1.withFrame f, p.2)

theorem ignoresFrame_of_readsAlike {body : State → Attempt (State × Result)} {s : State} {f : Vector Word 8}
    (h : ReadsAlike body s (s.withFrame f)) : IgnoresFrame body s f := by
  obtain ⟨a, hs, ht⟩ := h
  rw [IgnoresFrame, hs, ht]
  cases a <;> rfl

theorem ksLoadBody_ignoresFrame (kdata : List Byte) (s : State) (f : Vector Word 8) :
    IgnoresFrame (ksLoadBody kdata) s f := by
  have hks : (s.withFrame f).ksValid = s.ksValid := rfl
  rw [IgnoresFrame, ksLoadBody_eq, ksLoadBody_eq, hks]
  split_ifs <;> rfl

theorem itConfigBody_ignoresFrame (mask sel : Word) (s : State) (f : Vector Word 8) :
    IgnoresFrame (itConfigBody mask sel) s f := by
  unfold IgnoresFrame itConfigBody
  cases hashSelOperand sel <;> rfl

theorem settle_withFrame (s : State) (f : Vector Word 8) (a : Attempt (State × Result)) :
    settle (s.withFrame f) (a.map fun p => (p.1.withFrame f, p.2)) = mapNext (·.withFrame f) (settle s a) := by
  rcases a with (S | e) | ⟨t, r⟩ <;> rfl

theorem perform_withFrame {needs : Needs} {body : State → Attempt (State × Result)} {s : State} {f : Vector Word 8}
    (h : IgnoresFrame body s f) :
    perform needs body (s.withFrame f) = mapNext (·.withFrame f) (perform needs body s) := by
  have hmet : needs.met (s.withFrame f) = needs.met s := by cases needs <;> rfl
  have hfault : (s.withFrame f).fault = s.fault := rfl
  unfold perform
  rw [hmet, hfault]
  split_ifs
  · rfl
  · rfl
  · rw [h, settle_withFrame]

/-- Settles O24: the pseudocode of each of the six ignores the frame; four only read, and what they read is elsewhere. -/
theorem frameIsUntouchedByOtherOperations : Obligations.FrameIsUntouchedByOtherOperations := by
  intro i s f hi
  have hkey : s.sameKey (s.withFrame f) := ⟨rfl, fun _ _ => rfl⟩
  have htransform : s.sameTransform (s.withFrame f) := ⟨rfl, rfl⟩
  have hbody : IgnoresFrame (bodyOf i) s f := by
    cases i with
    | ksLoad kdata => exact ksLoadBody_ignoresFrame kdata s f
    | ksSubkey w off len => exact ignoresFrame_of_readsAlike (ksSubkeyBody_readsAlike hkey w off len)
    | itConfig mask sel => exact itConfigBody_ignoresFrame mask sel s f
    | itOffset index len => exact ignoresFrame_of_readsAlike (itOffsetBody_readsAlike hkey.1 htransform index len)
    | bcApply index block => exact ignoresFrame_of_readsAlike (bcApplyBody_readsAlike hkey htransform index block)
    | ftTagBits => exact ignoresFrame_of_readsAlike (ftTagBitsBody_readsAlike s _)
    | _ => exact hi.elim
  rw [exec_eq_perform, exec_eq_perform]
  exact perform_withFrame hbody

/-! ## What has no value (10_state.md R36, 70_reset_and_hazards.md R180) -/

theorem State.sameVisible.fw {s t : State} (h : s.sameVisible t) : s.fw = t.fw := by
  obtain ⟨hfw, -⟩ := h
  exact hfw

theorem State.sameVisible.ksValid {s t : State} (h : s.sameVisible t) : s.ksValid = t.ksValid := by
  obtain ⟨-, hks, -⟩ := h
  exact hks

theorem State.sameVisible.fault {s t : State} (h : s.sameVisible t) : s.fault = t.fault := by
  obtain ⟨-, -, -, -, hfault, -⟩ := h
  exact hfault

theorem State.sameVisible.inputs {s t : State} (h : s.sameVisible t) : s.inputs = t.inputs := by
  obtain ⟨-, -, -, -, -, hin, -⟩ := h
  exact hin

theorem State.sameVisible.sameKey {s t : State} (h : s.sameVisible t) (hv : s.ksValid = true) : s.sameKey t := by
  obtain ⟨-, -, -, -, -, -, -, hkey, -⟩ := h
  exact hkey hv

theorem State.sameVisible.sameTransform {s t : State} (h : s.sameVisible t) (hv : s.itValid = true) :
    s.sameTransform t := by
  obtain ⟨-, -, hsel, -, -, -, -, -, hmask⟩ := h
  exact ⟨hmask hv, hsel⟩

theorem Needs.met_congr {s t : State} (h : s.sameVisible t) (needs : Needs) : needs.met s = needs.met t := by
  obtain ⟨-, hks, -, hit, -⟩ := h
  cases needs with
  | nothing => rfl
  | key => exact hks
  | keyAndTransform => rw [Needs.met, Needs.met, hks, hit]

theorem sameVisible_complete {s t : State} (h : s.sameVisible t) (r : Result) :
    (s.complete r).sameVisible (t.complete r) := by
  obtain ⟨hfw, hks, hsel, hit, hfault, hin, hout, hkey, hmask⟩ := h
  exact ⟨hfw, hks, hsel, hit, hfault, hin,
    by rw [State.complete_outputs, State.complete_outputs, hout], hkey, hmask⟩

theorem sameVisible_raise {s t : State} (h : s.sameVisible t) (S : Status) : (s.raise S).sameVisible (t.raise S) := by
  obtain ⟨hfw, hks, hsel, hit, hfault, hin, hout, hkey, hmask⟩ := h
  exact ⟨hfw, hks, hsel, hit, congrArg (latchFault · S) hfault, hin,
    by rw [State.raise_outputs, State.raise_outputs, hout], hkey, hmask⟩

theorem sameVisible_popInput {s t : State} (h : s.sameVisible t) : s.popInput.sameVisible t.popInput := by
  obtain ⟨hfw, hks, hsel, hit, hfault, hin, hout, hkey, hmask⟩ := h
  exact ⟨hfw, hks, hsel, hit, hfault, congrArg List.tail hin, hout, hkey, hmask⟩

theorem sameVisible_applyReset {s t : State} (h : s.sameVisible t) : s.applyReset.sameVisible t.applyReset := by
  obtain ⟨-, -, -, -, -, hin, hout, -, -⟩ := h
  exact ⟨rfl, rfl, rfl, rfl, rfl, hin, hout, nofun, nofun⟩

theorem sameVisible_rejectIllegal {s t : State} (h : s.sameVisible t) : s.rejectIllegal.sameVisible t.rejectIllegal := by
  unfold State.rejectIllegal
  rw [← h.fault]
  split_ifs
  · exact sameVisible_raise h .faulted
  · exact sameVisible_raise h .illegalCommand

theorem sameVisible_withFrame {s t : State} (h : s.sameVisible t) {f g : Vector Word 8} (hfg : f = g) :
    (s.withFrame f).sameVisible (t.withFrame g) := by
  obtain ⟨-, hks, hsel, hit, hfault, hin, hout, hkey, hmask⟩ := h
  exact ⟨hfg, hks, hsel, hit, hfault, hin, hout, hkey, hmask⟩

theorem sameVisible_withTransform {s t : State} (h : s.sameVisible t) (mask : Word) (sel : HashSel) :
    (s.withTransform mask sel).sameVisible (t.withTransform mask sel) := by
  obtain ⟨hfw, hks, -, -, hfault, hin, hout, hkey, -⟩ := h
  exact ⟨hfw, hks, rfl, rfl, hfault, hin, hout, hkey, fun _ => rfl⟩

/-- A first KS_LOAD overwrites every byte that a later operation may read. -/
theorem sameKey_withKey (s t : State) (kdata : List Byte) : (s.withKey kdata).sameKey (t.withKey kdata) := by
  refine ⟨rfl, fun a ha => ?_⟩
  have hlt : a < kdata.length := lt_of_lt_of_le ha (Nat.mod_le _ _)
  have hread (m : Memory) : readCell (writeCells m 0 kdata) a = kdata[a]? := by
    simpa using readCell_writeCells_inside m kdata 0 a hlt
  simp only [State.withKey, readByte, hread]

theorem sameVisible_withKey {s t : State} (h : s.sameVisible t) (kdata : List Byte) :
    (s.withKey kdata).sameVisible (t.withKey kdata) := by
  obtain ⟨hfw, -, hsel, hit, hfault, hin, hout, -, hmask⟩ := h
  exact ⟨hfw, rfl, hsel, hit, hfault, hin, hout, fun _ => sameKey_withKey s t kdata, hmask⟩

/-- Two ends of a pseudocode that a host cannot tell apart. -/
def sameVisibleEnd : Attempt (State × Result) → Attempt (State × Result) → Prop
  | .ok (s, r), .ok (t, q) => r = q ∧ s.sameVisible t
  | .error e, .error e' => e = e'
  | _, _ => False

theorem sameVisibleEnd_of_readsAlike {body : State → Attempt (State × Result)} {s t : State} (hv : s.sameVisible t)
    (h : ReadsAlike body s t) : sameVisibleEnd (body s) (body t) := by
  obtain ⟨a, hs, ht⟩ := h
  rw [hs, ht]
  cases a with
  | error e => exact rfl
  | ok r => exact ⟨rfl, hv⟩

theorem ksLoadBody_sameVisible {s t : State} (h : s.sameVisible t) (kdata : List Byte) :
    sameVisibleEnd (ksLoadBody kdata s) (ksLoadBody kdata t) := by
  rw [ksLoadBody_eq, ksLoadBody_eq, ← h.ksValid]
  split_ifs
  · exact rfl
  · exact rfl
  · exact ⟨rfl, sameVisible_withKey h kdata⟩

theorem itConfigBody_sameVisible {s t : State} (h : s.sameVisible t) (mask sel : Word) :
    sameVisibleEnd (itConfigBody mask sel s) (itConfigBody mask sel t) := by
  unfold itConfigBody
  cases hashSelOperand sel with
  | error e => exact rfl
  | ok hs => exact ⟨rfl, sameVisible_withTransform h mask hs⟩

theorem frSetPayloadBody_sameVisible {s t : State} (h : s.sameVisible t) (i value : Word) :
    sameVisibleEnd (frSetPayloadBody i value s) (frSetPayloadBody i value t) := by
  unfold frSetPayloadBody
  cases payloadRegister i with
  | error e => exact rfl
  | ok n => exact ⟨rfl, sameVisible_withFrame h (by rw [h.fw])⟩

theorem frCipherBody_sameVisible {s t : State} (h : s.sameVisible t) (hk : s.sameKey t) (ht : s.sameTransform t) :
    sameVisibleEnd (frCipherBody s) (frCipherBody t) := by
  unfold frCipherBody
  rw [← tagw_congr h.fw, ← payloadBytes_congr h.fw, ← bcApply_congr hk ht]
  cases s.bcApply (ftGetIndex s.tagw) s.payloadBytes with
  | error e => exact rfl
  | ok out => exact ⟨rfl, sameVisible_withFrame h (by rw [fwRead_congr h.fw])⟩

/-- Once its valid flags are checked, a pseudocode cannot tell apart what a host cannot. -/
theorem bodyOf_sameVisible {i : Instr} {s t : State} (h : s.sameVisible t) (hn : (needsOf i).met s = true) :
    sameVisibleEnd (bodyOf i s) (bodyOf i t) := by
  have hfw := h.fw
  have tagWritten {v w : Word} (hvw : v = w) : (s.fwWrite 0 v).sameVisible (t.fwWrite 0 w) :=
    sameVisible_withFrame h (by rw [hfw, hvw])
  cases i with
  | ksLoad kdata => exact ksLoadBody_sameVisible h kdata
  | ksSubkey w off len =>
    exact sameVisibleEnd_of_readsAlike h (ksSubkeyBody_readsAlike (h.sameKey hn) w off len)
  | itConfig mask sel => exact itConfigBody_sameVisible h mask sel
  | itOffset index len =>
    obtain ⟨hk, ht⟩ := Needs.met_keyAndTransform.1 hn
    exact sameVisibleEnd_of_readsAlike h (itOffsetBody_readsAlike (h.sameKey hk).1 (h.sameTransform ht) index len)
  | bcApply index block =>
    obtain ⟨hk, ht⟩ := Needs.met_keyAndTransform.1 hn
    exact sameVisibleEnd_of_readsAlike h (bcApplyBody_readsAlike (h.sameKey hk) (h.sameTransform ht) index block)
  | ftNew index => exact ⟨rfl, tagWritten rfl⟩
  | ftGetIndex => exact sameVisibleEnd_of_readsAlike h (ftGetIndexBody_readsAlike hfw)
  | ftSetIndex index => exact ⟨rfl, tagWritten (by rw [tagw_congr hfw])⟩
  | ftGetTag => exact sameVisibleEnd_of_readsAlike h (ftGetTagBody_readsAlike hfw)
  | ftSetTag tag => exact ⟨rfl, tagWritten (by rw [tagw_congr hfw])⟩
  | ftTagBits => exact sameVisibleEnd_of_readsAlike h (ftTagBitsBody_readsAlike s t)
  | frNew => exact ⟨rfl, sameVisible_withFrame h rfl⟩
  | frAsBytes => exact sameVisibleEnd_of_readsAlike h (frAsBytesBody_readsAlike hfw)
  | frLoadBytes wdata => exact ⟨rfl, sameVisible_withFrame h rfl⟩
  | frCipher =>
    obtain ⟨hk, ht⟩ := Needs.met_keyAndTransform.1 hn
    exact frCipherBody_sameVisible h (h.sameKey hk) (h.sameTransform ht)
  | frSetPayload n value => exact frSetPayloadBody_sameVisible h n value
  | frGetPayload n => exact sameVisibleEnd_of_readsAlike h (frGetPayloadBody_readsAlike hfw n)

theorem settle_sameVisible {s t : State} (h : s.sameVisible t) {a b : Attempt (State × Result)}
    (hab : sameVisibleEnd a b) : sameVisibleOutcome (settle s a) (settle t b) := by
  rcases a with e | ⟨u, r⟩ <;> rcases b with e' | ⟨v, q⟩
  · obtain rfl : e = e' := hab
    cases e with
    | status S => exact sameVisible_raise h S
    | fault f => exact rfl
  · exact hab.elim
  · exact hab.elim
  · obtain ⟨rfl, huv⟩ := hab
    exact sameVisible_complete huv r

theorem exec_sameVisible (i : Instr) {s t : State} (h : s.sameVisible t) :
    sameVisibleOutcome (exec i s) (exec i t) := by
  rw [exec_eq_perform, exec_eq_perform]
  unfold perform
  rw [← Needs.met_congr h, ← h.fault]
  split_ifs with hf hn
  · exact sameVisible_raise h .faulted
  · exact sameVisible_raise h .notConfigured
  · exact settle_sameVisible h (bodyOf_sameVisible h (Bool.not_eq_false _ ▸ hn))

theorem arrival_congr {s t : State} (h : s.inputs = t.inputs) : s.arrival = t.arrival := by
  rw [State.arrival, State.arrival, h]

/-- Settles O27: the same input arrives in both states, and nothing a step does with it depends on what has no value. -/
theorem unspecifiedValuesAreNeverObserved : Obligations.UnspecifiedValuesAreNeverObserved := by
  intro s t h
  have hpop := sameVisible_popInput h
  unfold step
  rw [← arrival_congr h.inputs]
  cases s.arrival with
  | idle => exact h
  | reset => exact sameVisible_applyReset hpop
  | illegal => exact sameVisible_rejectIllegal hpop
  | operation i => exact exec_sameVisible i hpop

end Sys2Proof.Machine
end

section
/-! Key memory (20_memory.md): its reads stay below KEY_LEN (R46), what the operations that only read leave (R48), and
the windows that the offset function selects (R50). -/

namespace Sys2Proof.Machine

/-! ## Reads stay below KEY_LEN (20_memory.md R43, R46) -/

/-- Every window that a pseudocode reads has passed its length check, or comes from the offset function, which leaves
room for it. -/
theorem bodyOf_ne_keyReadBeyondLength (i : Instr) (s : State) (a n : Nat) :
    bodyOf i s ≠ .error (.fault (.keyReadBeyondLength a n)) := by
  intro h
  cases i with
  | ksLoad kdata =>
    rcases ksLoadBody_cases kdata s with ⟨-, hb⟩ | ⟨-, -, hb⟩ | ⟨-, -, -, hb⟩
    all_goals cases hb.symm.trans h
  | ksSubkey w off len =>
    rcases ksSubkeyBody_cases w off len s with ⟨-, hb⟩ | ⟨-, -, hb⟩ | ⟨-, -, -, hb⟩ |
      ⟨-, -, ⟨ws, -, hb⟩ | ⟨f, -, hb, hf⟩⟩
    all_goals cases hb.symm.trans h
    exact hf a n rfl
  | itConfig mask sel =>
    rcases itConfigBody_cases mask sel s with ⟨-, hb⟩ | ⟨-, hb⟩ | ⟨-, hb⟩
    all_goals cases hb.symm.trans h
  | itOffset index len =>
    rcases itOffsetBody_cases index len s with ⟨-, hb⟩ | ⟨-, hb⟩
    all_goals cases hb.symm.trans h
  | bcApply index block =>
    rcases bcApplyBody_cases index block s with ⟨-, hb⟩ | ⟨-, ⟨out, -, hb⟩ | ⟨f, hb, hf⟩⟩
    all_goals cases hb.symm.trans h
    exact hf a n rfl
  | frCipher =>
    rcases frCipherBody_cases s with ⟨-, hb⟩ | ⟨-, ⟨out, -, hb⟩ | ⟨f, hb, hf⟩⟩
    all_goals cases hb.symm.trans h
    exact hf a n rfl
  | frSetPayload k value =>
    rcases frSetPayloadBody_cases k value s with ⟨_, hb⟩ | ⟨-, hb⟩
    all_goals cases hb.symm.trans h
  | frGetPayload k =>
    rcases frGetPayloadBody_cases k s with ⟨_, hb⟩ | ⟨-, hb⟩
    all_goals cases hb.symm.trans h
  | ftNew | ftGetIndex | ftSetIndex | ftGetTag | ftSetTag | ftTagBits | frNew | frAsBytes | frLoadBytes => cases h

/-- Settles O18: only the pseudocode of an operation can end in a fault, and none ends in this one. -/
theorem keyReadsStayBelowKeyLen : Obligations.KeyReadsStayBelowKeyLen := by
  intro i s a n h
  rw [exec_eq_perform] at h
  obtain ⟨-, -, hb⟩ := perform_eq_fault h
  exact bodyOf_ne_keyReadBeyondLength i s a n hb

/-! ## Operations that only read (20_memory.md R48) -/

/-- A pseudocode that only reads completes, where it does, with the state it began with. -/
theorem state_eq_of_readsAlike {body : State → Attempt (State × Result)} {s t u : State} {r : Result}
    (h : ReadsAlike body s t) (hb : body s = .ok (u, r)) : u = s := by
  obtain ⟨a, hs, -⟩ := h
  rw [hs] at hb
  cases a with
  | error e => cases hb
  | ok q => cases hb; rfl

theorem bodyOf_readsAlike {i : Instr} (hi : readsOnly i = true) (s : State) : ReadsAlike (bodyOf i) s s := by
  have hkey : s.sameKey s := ⟨rfl, fun _ _ => rfl⟩
  have htransform : s.sameTransform s := ⟨rfl, rfl⟩
  cases i with
  | ksSubkey w off len => exact ksSubkeyBody_readsAlike hkey w off len
  | itOffset index len => exact itOffsetBody_readsAlike rfl htransform index len
  | bcApply index block => exact bcApplyBody_readsAlike hkey htransform index block
  | ftGetIndex => exact ftGetIndexBody_readsAlike rfl
  | ftGetTag => exact ftGetTagBody_readsAlike rfl
  | ftTagBits => exact ftTagBitsBody_readsAlike s s
  | frAsBytes => exact frAsBytesBody_readsAlike rfl
  | frGetPayload k => exact frGetPayloadBody_readsAlike rfl k
  | _ => cases hi

/-- Everything an operation that only reads can leave: the state before with a result, or with a status raised. -/
theorem exec_eq_next_of_readsOnly {i : Instr} {s t : State} (hi : readsOnly i = true) (h : exec i s = .next t) :
    (s.fault = 0#4 ∧ (needsOf i).met s = true ∧ ∃ r, bodyOf i s = .ok (s, r) ∧ t = s.complete r) ∨
      ∃ S, t = s.raise S := by
  rw [exec_eq_perform] at h
  rcases perform_eq_next h with ⟨hf, hn, u, r, hb, ht⟩ | ⟨S, ht, -⟩
  · obtain rfl := state_eq_of_readsAlike (bodyOf_readsAlike hi s) hb
    exact .inl ⟨hf, hn, r, hb, ht⟩
  · exact .inr ⟨S, ht⟩

/-- A status that is not fatal leaves the fault latch alone (60_exceptions.md R150). -/
theorem State.raise_of_not_fatal (s : State) {S : Status} (hS : S.fatal = false) :
    s.raise S = s.answered S .noResult := by
  have hlatch : latchFault s.fault S = s.fault := if_neg (by simp [hS])
  rw [State.raise, hlatch]

/-- Settles O23: such an operation leaves the state before with its answer, and OK is no status that latches a fault. -/
theorem readingOperationsChangeNothing : Obligations.ReadingOperationsChangeNothing := by
  intro i s t r hi h hout
  rcases exec_eq_next_of_readsOnly hi h with ⟨-, -, q, -, rfl⟩ | ⟨S, rfl⟩
  · cases List.append_cancel_left hout
    rfl
  · cases List.append_cancel_left hout
    exact s.raise_of_not_fatal rfl

/-! ## The windows of the offset function (20_memory.md R50, 41_index_transform.md R92) -/

/-- The offset an IT_OFFSET gives is below 2^32, so RESULT holds it whole. -/
theorem itOffsetBody_inBounds {index len off : Word} {s u : State}
    (h : itOffsetBody index len s = .ok (u, .scalar off)) : off.toNat + len.toNat ≤ s.totalWords 32 := by
  rcases itOffsetBody_cases index len s with ⟨-, hb⟩ | ⟨hlen, hb⟩
  · cases hb.symm.trans h
  · cases hb.symm.trans h
    obtain ⟨-, -, hbound⟩ := offsetFor_eq_ok (offsetFor_of_le (s := s) index hlen)
    rwa [BitVec.toNat_ofNat, Nat.mod_eq_of_lt ((Nat.mod_le _ _).trans_lt (BitVec.isLt _))]

/-- A KS_SUBKEY whose width is aligned and whose window is in bounds returns `len` words (40_keystore.md R82). -/
theorem exec_ksSubkey_of_inBounds {s : State} {w : WordWidth} {off len : Word} (hf : s.fault = 0#4)
    (hv : s.ksValid = true) (hs : s.keyReady) (ha : w.bits / 8 ≤ Config.keyAlign)
    (hb : off.toNat + len.toNat ≤ s.totalWords w.bits) :
    ∃ ws, exec (.ksSubkey w off len) s = .next (s.complete (.words w.bits ws)) ∧ ws.length = len.toNat := by
  obtain ⟨ws, hws⟩ := subkey_of_ready hs hb
  obtain ⟨hlen, -⟩ := subkey_eq_ok hws
  have hbody : ksSubkeyBody w off len s = .ok (s, .words w.bits ws) := by
    rw [ksSubkeyBody, if_neg (by omega), if_neg (by omega), if_neg (by omega), hws]
    rfl
  exact ⟨ws, perform_of_ok hf (Needs.met_key.2 hv) hbody, hlen⟩

/-- Settles O34: IT_OFFSET leaves the key store as it is, so the window it selects can be read from it. -/
theorem offsetsSelectWindowsInBounds : Obligations.OffsetsSelectWindowsInBounds := by
  intro s t index len off hinv h hout
  rcases exec_eq_next_of_readsOnly rfl h with ⟨hf, hn, r, hb, rfl⟩ | ⟨S, rfl⟩
  · cases List.append_cancel_left hout
    have hbound := itOffsetBody_inBounds hb
    obtain ⟨hv, -⟩ := Needs.met_keyAndTransform.1 hn
    obtain ⟨-, hready, -, -⟩ := hinv
    obtain ⟨ws, hexec, hlen⟩ := exec_ksSubkey_of_inBounds (s := s.complete (.scalar off)) (w := .w32) hf hv
      (hready hv) Config.wordBytes_le_keyAlign hbound
    exact ⟨hbound, _, ws, hexec, rfl, hlen⟩
  · cases List.append_cancel_left hout

end Sys2Proof.Machine
end

section
/-! The command word (30_encoding.md): its fields, the data port, the decoder as a statement about both, and the settled
statements about the encoder, the opcode table, unused operands and the illegal encodings. -/

namespace Sys2Proof

/-! ## The fields of CTRL (30_encoding.md R64) -/

theorem Command.op_toNat (c : Command) : c.op.toNat = c.ctrl.toNat % 32 := by
  rw [Command.op, BitVec.extractLsb'_toNat, Nat.shiftRight_zero]

theorem Command.wsel_toNat (c : Command) : c.wsel.toNat = c.ctrl.toNat / 32 % 4 := by
  rw [Command.wsel, BitVec.extractLsb'_toNat, Nat.shiftRight_eq_div_pow]

theorem Command.reserved_toNat (c : Command) : c.reserved.toNat = c.ctrl.toNat / 128 := by
  rw [Command.reserved, BitVec.extractLsb'_toNat, Nat.shiftRight_eq_div_pow]
  omega

theorem Command.op_congr {c d : Command} (h : c.ctrl = d.ctrl) : c.op = d.op := by
  rw [Command.op, h, Command.op]

theorem Command.wsel_congr {c d : Command} (h : c.ctrl = d.ctrl) : c.wsel = d.wsel := by
  rw [Command.wsel, h, Command.wsel]

theorem Command.reserved_congr {c d : Command} (h : c.ctrl = d.ctrl) : c.reserved = d.reserved := by
  rw [Command.reserved, h, Command.reserved]

/-- The three fields make up the whole word. -/
theorem ctrl_eq_iff {x y : Word} : x = y ↔ x.extractLsb' 7 25 = y.extractLsb' 7 25 ∧
    x.extractLsb' 5 2 = y.extractLsb' 5 2 ∧ x.extractLsb' 0 5 = y.extractLsb' 0 5 := by
  refine ⟨by rintro rfl; exact ⟨rfl, rfl, rfl⟩, fun ⟨hreserved, hwsel, hop⟩ => BitVec.eq_of_toNat_eq ?_⟩
  simp only [← BitVec.toNat_inj, BitVec.extractLsb'_toNat, Nat.shiftRight_eq_div_pow] at hreserved hwsel hop
  omega

@[simp] theorem reserved_ctrlWord (wsel : BitVec 2) (op : BitVec 5) : (ctrlWord wsel op).extractLsb' 7 25 = 0#25 := by
  rw [ctrlWord, BitVec.append_assoc]
  exact BitVec.extractLsb'_append_eq_left

@[simp] theorem wsel_ctrlWord (wsel : BitVec 2) (op : BitVec 5) : (ctrlWord wsel op).extractLsb' 5 2 = wsel := by
  rw [ctrlWord, BitVec.extractLsb'_append_eq_of_le (Nat.le_refl 5)]
  exact BitVec.extractLsb'_append_eq_right

@[simp] theorem op_ctrlWord (wsel : BitVec 2) (op : BitVec 5) : (ctrlWord wsel op).extractLsb' 0 5 = op :=
  BitVec.extractLsb'_append_eq_right

theorem toNat_ctrlWord_zero : ∀ op : BitVec 5, (ctrlWord 0 op).toNat = op.toNat := by
  decide

theorem WordWidth.ofSel_sel (w : WordWidth) : WordWidth.ofSel w.sel = w := by
  cases w <;> rfl

theorem WordWidth.sel_ofSel : ∀ sel : BitVec 2, (WordWidth.ofSel sel).sel = sel := by
  decide

/-! ## The data port (30_encoding.md R70) -/

theorem portBytes_of_le {n : Nat} {data : List Byte} (h : n ≤ data.length) : portBytes n data = data.take n := by
  rw [portBytes, Nat.sub_eq_zero_of_le h, List.range'_zero, List.map_nil, List.append_nil]

theorem portBytes_of_length_eq {n : Nat} {data : List Byte} (h : data.length = n) : portBytes n data = data := by
  rw [portBytes_of_le h.ge, ← h, List.take_length]

/-- The data port delivers the same to two commands that hold the same bytes where the operation samples them. -/
theorem portBytes_congr {n : Nat} {xs ys : List Byte} (hx : n ≤ xs.length) (hy : n ≤ ys.length)
    (h : xs.take n = ys.take n) : portBytes n xs = portBytes n ys := by
  rw [portBytes_of_le hx, portBytes_of_le hy, h]

theorem portVector_toList {n : Nat} (v : Vector Byte n) : portVector n v.toList = v :=
  Vector.toList_inj.1 (portBytes_of_length_eq v.length_toList)

theorem portVector_congr {n : Nat} {xs ys : List Byte} (h : portBytes n xs = portBytes n ys) :
    portVector n xs = portVector n ys :=
  Vector.toList_inj.1 h

/-! ## The decoder -/

/-- The `wsel` an instruction is encoded with (30_encoding.md R64, R65). -/
def Instr.wsel : Instr → BitVec 2
  | .ksSubkey w _ _ => w.sel
  | _ => 0

/-- The operands of an instruction are those the command holds in its argument words and on its data port (R66). -/
def Command.Carries (c : Command) : Instr → Prop
  | .ksLoad kdata => portBytes c.arg0.toNat c.data = kdata
  | .ksSubkey _ wordOffset len => c.arg0 = wordOffset ∧ c.arg1 = len
  | .itConfig mask hashSel => c.arg0 = mask ∧ c.arg1 = hashSel
  | .itOffset index len => c.arg0 = index ∧ c.arg1 = len
  | .bcApply index wdata => c.arg0 = index ∧ portVector 28 c.data = wdata
  | .ftNew index => c.arg0 = index
  | .ftSetIndex index => c.arg0 = index
  | .ftSetTag tag => c.arg0 = tag
  | .frLoadBytes wdata => portVector 32 c.data = wdata
  | .frSetPayload n value => c.arg0 = n ∧ c.arg1 = value
  | .frGetPayload n => c.arg0 = n
  | .ftGetIndex | .ftGetTag | .ftTagBits | .frNew | .frAsBytes | .frCipher => True

/-- Why a command is illegal, if it is: a question about CTRL alone (R69). -/
def Command.illegality (c : Command) : Option DecodeError :=
  if c.reserved ≠ 0#25 then some .reservedBits
  else if c.wsel ≠ 0#2 ∧ c.op ≠ 2#5 then some .widthOnOtherOperation
  else if c.op.toNat = 0 ∨ 0x12 ≤ c.op.toNat then some .reservedOperation
  else none

theorem Command.illegality_congr {c d : Command} (h : c.ctrl = d.ctrl) : c.illegality = d.illegality := by
  rw [illegality, reserved_congr h, wsel_congr h, op_congr h, illegality]

/-- The command's bits stand for an instruction: its code, its width and its operands. -/
structure Command.Selects (c : Command) (i : Instr) : Prop where
  reserved : c.reserved = 0#25
  wsel : c.wsel = i.wsel
  op : c.op = i.opCode
  operands : c.Carries i

theorem Instr.opCode_range (i : Instr) : 1 ≤ i.opCode.toNat ∧ i.opCode.toNat < 0x12 := by
  cases i <;> simp [Instr.opCode]

theorem Instr.wsel_eq_zero_or (i : Instr) : i.wsel = 0#2 ∨ i.opCode = 2#5 := by
  cases i with
  | ksSubkey => exact .inr rfl
  | _ => exact .inl rfl

theorem Command.illegality_eq_none_iff {c : Command} : c.illegality = none ↔
    c.reserved = 0#25 ∧ (c.wsel = 0#2 ∨ c.op = 2#5) ∧ 1 ≤ c.op.toNat ∧ c.op.toNat < 0x12 := by
  unfold illegality
  split_ifs with hreserved hwidth hop
  · simp [hreserved]
  · simp [hwidth]
  · simp only [false_iff]
    omega
  · simp only [true_iff]
    exact ⟨not_not.1 hreserved, by tauto, by omega⟩

/-- R69's list, on the bits of CTRL. -/
theorem Command.illegality_ne_none_iff {c : Command} : c.illegality ≠ none ↔
    (c.ctrl.toNat % 32 = 0 ∨ 0x12 ≤ c.ctrl.toNat % 32 ∨ c.ctrl.toNat / 128 ≠ 0 ∨
      (c.ctrl.toNat / 32 % 4 ≠ 0 ∧ c.ctrl.toNat % 32 ≠ 2)) := by
  simp only [ne_eq, Command.illegality_eq_none_iff, ← BitVec.toNat_inj, Command.reserved_toNat, Command.wsel_toNat,
    Command.op_toNat, BitVec.toNat_ofNat]
  omega

theorem Command.Selects.legal {c : Command} {i : Instr} (h : c.Selects i) : c.illegality = none := by
  rw [illegality_eq_none_iff, h.wsel, h.op]
  exact ⟨h.reserved, i.wsel_eq_zero_or, i.opCode_range⟩

/-- Everything the decoder can do. -/
theorem decode_cases (c : Command) :
    (∃ e, c.illegality = some e ∧ decode c = .error e) ∨ (∃ i, c.Selects i ∧ decode c = .ok i) := by
  unfold decode
  split
  · exact .inl ⟨_, if_pos ‹_›, rfl⟩
  next hreserved =>
  split
  · exact .inl ⟨_, (if_neg hreserved).trans (if_pos ‹_›), rfl⟩
  next hwidth =>
  have hwsel (hop : c.op.toNat ≠ 2) : c.wsel = 0#2 := by
    by_contra hne
    exact hwidth ⟨hne, fun h2 => hop (by rw [h2]; rfl)⟩
  split
  case h_2 hop =>
    refine .inr ⟨_, ?_, rfl⟩
    exact ⟨not_not.1 hreserved, (WordWidth.sel_ofSel _).symm, BitVec.eq_of_toNat_eq hop, rfl, rfl⟩
  case h_18 =>
    refine .inl ⟨_, ?_, rfl⟩
    have hlt := c.op.isLt
    simp only [imp_false] at *
    exact (if_neg hreserved).trans ((if_neg hwidth).trans (if_pos (by omega)))
  all_goals
    rename_i hop
    refine .inr ⟨_, ?_, rfl⟩
    exact ⟨not_not.1 hreserved, hwsel (by omega), BitVec.eq_of_toNat_eq hop, by simp [Command.Carries]⟩

theorem decode_eq_ok_of_selects {c : Command} {i : Instr} (h : c.Selects i) : decode c = .ok i := by
  obtain ⟨hreserved, hwsel, hop, hoperands⟩ := h
  rw [decode, if_neg (not_not.2 hreserved), hop, hwsel]
  cases i with
  | ksSubkey w wordOffset len =>
    obtain ⟨rfl, rfl⟩ := hoperands
    rw [Instr.wsel, WordWidth.ofSel_sel]
    exact if_neg fun hwidth => hwidth.2 rfl
  | itConfig | itOffset | bcApply | frSetPayload =>
    obtain ⟨rfl, rfl⟩ := hoperands
    rfl
  | ksLoad | ftNew | ftSetIndex | ftSetTag | frLoadBytes | frGetPayload =>
    obtain rfl := hoperands
    rfl
  | ftGetIndex | ftGetTag | ftTagBits | frNew | frAsBytes | frCipher => rfl

theorem decode_eq_ok_iff {c : Command} {i : Instr} : decode c = .ok i ↔ c.Selects i := by
  refine ⟨fun h => ?_, decode_eq_ok_of_selects⟩
  rcases decode_cases c with ⟨e, -, he⟩ | ⟨j, hj, hd⟩
  · cases he.symm.trans h
  · cases hd.symm.trans h
    exact hj

theorem decode_eq_error_iff {c : Command} {e : DecodeError} : decode c = .error e ↔ c.illegality = some e := by
  rcases decode_cases c with ⟨f, hf, hd⟩ | ⟨i, hi, hd⟩
  · simp [hf, hd]
  · simp [hi.legal, hd]

theorem decode_accepts_iff {c : Command} : (∃ i, decode c = .ok i) ↔ c.illegality = none := by
  rcases decode_cases c with ⟨e, he, hd⟩ | ⟨i, hi, hd⟩
  · simp [he, hd]
  · simp [hi.legal, hd]

theorem decode_rejects_iff {c : Command} : (∃ e, decode c = .error e) ↔ c.illegality ≠ none := by
  simp only [decode_eq_error_iff, Option.ne_none_iff_exists']

/-! ## The encoder -/

theorem encode_ctrl (i : Instr) : (encode i).ctrl = ctrlWord i.wsel i.opCode := by
  cases i <;> rfl

theorem encode_carries {i : Instr} (h : i.wellFormed = true) : (encode i).Carries i := by
  cases i with
  | ksLoad kdata =>
    have hlen : kdata.length < 2 ^ 32 := of_decide_eq_true h
    exact portBytes_of_length_eq (Nat.mod_eq_of_lt hlen).symm
  | bcApply index wdata => exact ⟨rfl, portVector_toList wdata⟩
  | frLoadBytes wdata => exact portVector_toList wdata
  | ksSubkey | itConfig | itOffset | frSetPayload => exact ⟨rfl, rfl⟩
  | ftNew | ftSetIndex | ftSetTag | frGetPayload => rfl
  | ftGetIndex | ftGetTag | ftTagBits | frNew | frAsBytes | frCipher => trivial

theorem encode_selects {i : Instr} (h : i.wellFormed = true) : (encode i).Selects i where
  reserved := by rw [Command.reserved, encode_ctrl, reserved_ctrlWord]
  wsel := by rw [Command.wsel, encode_ctrl, wsel_ctrlWord]
  op := by rw [Command.op, encode_ctrl, op_ctrlWord]
  operands := encode_carries h

/-- Settles O1: the encoding holds the instruction's code, its width and its operands, a blob's length included. -/
theorem decodeOfEncodeIsTheInstruction : Obligations.DecodeOfEncodeIsTheInstruction :=
  fun _ h => decode_eq_ok_of_selects (encode_selects h)

theorem decode_of_encode_eq {c : Command} {i : Instr} (hc : encode i = c) (h : i.wellFormed = true) :
    decode c = .ok i :=
  hc ▸ decodeOfEncodeIsTheInstruction i h

/-- Settles O5: each of the five legal words is the encoding of its instruction, and code 0 is reserved. -/
theorem wordsOfTheSpecDecode : Obligations.WordsOfTheSpecDecode :=
  ⟨decode_of_encode_eq (by decide) rfl, decode_of_encode_eq (by decide) rfl, decode_of_encode_eq (by decide) rfl,
    decode_of_encode_eq (by decide) rfl, decode_of_encode_eq (by decide) rfl, decode_eq_error_iff.2 (by decide)⟩

/-- Settles O3: a blob is as long as ARG0 says, and ARG0 is a 32-bit word. -/
theorem decodedInstructionsAreWellFormed : Obligations.DecodedInstructionsAreWellFormed := by
  intro c i h
  obtain ⟨-, -, -, hoperands⟩ := decode_eq_ok_iff.1 h
  cases i with
  | ksLoad kdata =>
    have hlen : kdata.length = c.arg0.toNat := hoperands ▸ portBytes_length _ _
    exact decide_eq_true (hlen ▸ c.arg0.isLt)
  | _ => rfl

/-! ## The opcode table (30_encoding.md R68) -/

/-- The operation code of a row. -/
def OpcodeRow.code (r : OpcodeRow) : BitVec 5 := r.pattern.extractLsb' 0 5

/-- A row fixes the reserved bits to 0 and `op` to its code; KS_SUBKEY's leaves `wsel` open, the others fix it to 0. -/
theorem opcodeTable_fields : ∀ r ∈ opcodeTable,
    r.pattern = ctrlWord 0 r.code ∧
      r.mask.extractLsb' 7 25 = BitVec.allOnes 25 ∧
      r.mask.extractLsb' 5 2 = (if r.code = 2#5 then 0#2 else BitVec.allOnes 2) ∧
      r.mask.extractLsb' 0 5 = BitVec.allOnes 5 := by
  decide

theorem exists_row_code_iff : ∀ op : BitVec 5,
    (∃ r ∈ opcodeTable, op = r.code) ↔ 1 ≤ op.toNat ∧ op.toNat < 0x12 := by
  decide

theorem opcodeTable_codes_nodup : (opcodeTable.map OpcodeRow.code).Nodup := by
  decide

/-- Matching a row is matching it field by field. -/
theorem Command.matchesRow_iff_fields {c : Command} {r : OpcodeRow} : c.matchesRow r = true ↔
    c.reserved &&& r.mask.extractLsb' 7 25 = r.pattern.extractLsb' 7 25 ∧
      c.wsel &&& r.mask.extractLsb' 5 2 = r.pattern.extractLsb' 5 2 ∧
      c.op &&& r.mask.extractLsb' 0 5 = r.pattern.extractLsb' 0 5 := by
  rw [Command.matchesRow, beq_iff_eq, ctrl_eq_iff, BitVec.extractLsb'_and, BitVec.extractLsb'_and,
    BitVec.extractLsb'_and]
  rfl

theorem Command.matchesRow_iff {c : Command} {r : OpcodeRow} (hr : r ∈ opcodeTable) : c.matchesRow r = true ↔
    c.reserved = 0#25 ∧ (c.wsel = 0#2 ∨ c.op = 2#5) ∧ c.op = r.code := by
  obtain ⟨hpattern, hreserved, hwsel, hop⟩ := opcodeTable_fields r hr
  rw [Command.matchesRow_iff_fields, hpattern, hreserved, hwsel, hop, reserved_ctrlWord, wsel_ctrlWord, op_ctrlWord,
    BitVec.and_allOnes, BitVec.and_allOnes]
  refine and_congr_right fun _ => and_congr_left fun hcode => ?_
  split
  next hsubkey => simp [hcode, hsubkey]
  next hother =>
    rw [BitVec.and_allOnes, hcode]
    simp [hother]

/-- Settles O2: the decoder and the table agree on each field of CTRL, and a row is found by its code. -/
theorem decodeAcceptsExactlyTheOpcodeTable : Obligations.DecodeAcceptsExactlyTheOpcodeTable := by
  refine ⟨fun c => ?accepted, fun c i r hd hr hm => ?code, fun c r q hr hq hmr hmq => ?unique⟩
  case accepted =>
    rw [decode_accepts_iff, Command.illegality_eq_none_iff, ← exists_row_code_iff]
    constructor
    · rintro ⟨hreserved, hwsel, r, hr, hcode⟩
      exact ⟨r, hr, (Command.matchesRow_iff hr).2 ⟨hreserved, hwsel, hcode⟩⟩
    · rintro ⟨r, hr, hm⟩
      obtain ⟨hreserved, hwsel, hcode⟩ := (Command.matchesRow_iff hr).1 hm
      exact ⟨hreserved, hwsel, r, hr, hcode⟩
  case code =>
    obtain ⟨-, -, hcode⟩ := (Command.matchesRow_iff hr).1 hm
    obtain ⟨hpattern, -⟩ := opcodeTable_fields r hr
    rw [hpattern, toNat_ctrlWord_zero, ← hcode, (decode_eq_ok_iff.1 hd).op]
  case unique =>
    obtain ⟨-, -, hcode⟩ := (Command.matchesRow_iff hr).1 hmr
    obtain ⟨-, -, hcode'⟩ := (Command.matchesRow_iff hq).1 hmq
    exact List.inj_on_of_nodup_map opcodeTable_codes_nodup hr hq (hcode.symm.trans hcode')

end Sys2Proof

namespace Sys2Proof.Machine

/-! ## Unused operands (30_encoding.md R66) -/

theorem Command.carries_congr {c d : Command} {i : Instr} (h0 : usesArg0 i.opCode.toNat = true → c.arg0 = d.arg0)
    (h1 : usesArg1 i.opCode.toNat = true → c.arg1 = d.arg1)
    (hdata : portBytes (samples i.opCode.toNat c.arg0) c.data = portBytes (samples i.opCode.toNat c.arg0) d.data)
    (hc : c.Carries i) : d.Carries i := by
  cases i with
  | ksLoad =>
    show portBytes d.arg0.toNat d.data = _
    rw [← h0 rfl]
    exact hdata.symm.trans hc
  | bcApply =>
    obtain ⟨harg0, hblock⟩ := hc
    exact ⟨(h0 rfl).symm.trans harg0, (portVector_congr hdata).symm.trans hblock⟩
  | frLoadBytes => exact (portVector_congr hdata).symm.trans hc
  | ksSubkey | itConfig | itOffset | frSetPayload =>
    obtain ⟨harg0, harg1⟩ := hc
    exact ⟨(h0 rfl).symm.trans harg0, (h1 rfl).symm.trans harg1⟩
  | ftNew | ftSetIndex | ftSetTag | frGetPayload => exact (h0 rfl).symm.trans hc
  | ftGetIndex | ftGetTag | ftTagBits | frNew | frAsBytes | frCipher => trivial

/-- Settles O4: an illegal command is illegal by its CTRL alone, and a legal one carries the same operands. -/
theorem unusedOperandsAreIgnored : Obligations.UnusedOperandsAreIgnored := by
  intro c d hctrl h0 h1 ⟨hclen, hdlen, hdata⟩
  cases hd : decode c with
  | error e =>
    rw [decode_eq_error_iff, Command.illegality_congr hctrl] at hd
    exact (decode_eq_error_iff.2 hd).symm
  | ok i =>
    obtain ⟨hreserved, hwsel, hop, hoperands⟩ := decode_eq_ok_iff.1 hd
    rw [← c.op_toNat, hop] at h0 h1 hclen hdlen hdata
    refine (decode_eq_ok_of_selects ⟨?_, ?_, ?_, ?_⟩).symm
    · rw [← Command.reserved_congr hctrl, hreserved]
    · rw [← Command.wsel_congr hctrl, hwsel]
    · rw [← Command.op_congr hctrl, hop]
    · exact Command.carries_congr h0 h1 (portBytes_congr hclen hdlen hdata) hoperands

/-! ## Illegal encodings (30_encoding.md R69) -/

theorem State.arrival_of_decode_error {s : State} {c : Command} {rest : List Input} {e : DecodeError}
    (h : s.inputs = .command c :: rest) (hd : decode c = .error e) : s.arrival = .illegal := by
  simp only [State.arrival, h, hd]

theorem step_of_arrival_illegal {s : State} (h : s.arrival = .illegal) : step s = .next s.popInput.rejectIllegal := by
  simp only [step, h]

theorem State.rejectIllegal_of_no_fault {s : State} (h : s.fault = 0#4) :
    s.rejectIllegal = s.answered .illegalCommand .noResult := by
  rw [State.rejectIllegal, if_neg (not_not.2 h), State.raise_of_not_fatal s rfl]

/-- Settles O8: the decoder's three reasons are together R69's list, and the step answers all three alike. -/
theorem illegalEncodingsAreTheReservedOnes : Obligations.IllegalEncodingsAreTheReservedOnes := by
  refine ⟨fun c => decode_rejects_iff.trans Command.illegality_ne_none_iff, fun s c rest hinputs hf hill => ?_⟩
  obtain ⟨e, he⟩ := decode_rejects_iff.2 (Command.illegality_ne_none_iff.2 hill)
  have hpop : s.popInput.fault = 0#4 := hf
  calc step s = .next s.popInput.rejectIllegal := step_of_arrival_illegal (State.arrival_of_decode_error hinputs he)
    _ = .next (s.popInput.answered .illegalCommand .noResult) := by rw [State.rejectIllegal_of_no_fault hpop]
    _ = _ := by rw [State.popInput_eq_of_inputs hinputs]

end Sys2Proof.Machine
end

section
/-! The key store: what may change KEY and KEY_LEN, what KS_LOAD stores, and what KS_SUBKEY answers
(40_keystore.md R80 to R83). -/

namespace Sys2Proof.Config

theorem KeyAlign.bytes_eq (a : KeyAlign) : a.bytes = 4 ∨ a.bytes = 8 := by
  cases a with
  | four => exact .inl rfl
  | eight => exact .inr rfl

theorem keyAlign_eq : keyAlign = 4 ∨ keyAlign = 8 := keyAlignment.bytes_eq

end Sys2Proof.Config

namespace Sys2Proof

theorem WordWidth.bytes_le_four {w : WordWidth} (h : w ≠ .w64) : w.bits / 8 ≤ 4 := by
  cases w with
  | w8 | w16 | w32 => decide
  | w64 => exact absurd rfl h

end Sys2Proof

namespace Sys2Proof.Machine

/-! ## How the end of a pseudocode answers the command (60_exceptions.md R150, R152) -/

theorem exec_of_ok {i : Instr} {s t : State} {r : Result} (hf : s.fault = 0#4) (hn : (needsOf i).met s = true)
    (hb : bodyOf i s = .ok (t, r)) : exec i s = .next (t.complete r) :=
  (exec_eq_perform i s).trans (perform_of_ok hf hn hb)

theorem exec_of_raise {i : Instr} {s : State} {S : Status} (hf : s.fault = 0#4) (hn : (needsOf i).met s = true)
    (hb : bodyOf i s = .error (.status S)) : exec i s = .next (s.raise S) :=
  (exec_eq_perform i s).trans (perform_of_raise hf hn hb)

theorem State.raise_of_fatal {s : State} {S : Status} (hf : s.fault = 0#4) (hS : S.fatal = true) :
    s.raise S = s.latched S S.code := by
  have hlatch : latchFault s.fault S = S.code := if_pos ⟨hS, hf⟩
  rw [State.raise, hlatch]

/-- An operation whose common checks pass and whose pseudocode raises a fatal status latches that status's code. -/
theorem exec_of_fatal {i : Instr} {s : State} {S : Status} (hf : s.fault = 0#4) (hn : (needsOf i).met s = true)
    (hS : S.fatal = true) (hb : bodyOf i s = .error (.status S)) : exec i s = .next (s.latched S S.code) := by
  rw [exec_of_raise hf hn hb, State.raise_of_fatal hf hS]

/-! ## What changes the key (40_keystore.md R81) -/

/-- The two registers R81 speaks of, KEY and KEY_LEN, are the same in both states. -/
structure State.KeepsKey (s t : State) : Prop where
  key : t.key = s.key
  keyLen : t.keyLen = s.keyLen

/-- Of the pseudocodes that complete, only that of a first KS_LOAD writes the key. -/
theorem bodyOf_keepsKey {i : Instr} {s u : State} {r : Result} (h : bodyOf i s = .ok (u, r)) :
    s.KeepsKey u ∨ s.ksValid = false ∧ ∃ kdata, i = .ksLoad kdata := by
  by_cases hread : readsOnly i = true
  · exact .inl (state_eq_of_readsAlike (bodyOf_readsAlike hread s) h ▸ ⟨rfl, rfl⟩)
  cases i with
  | ksLoad kdata =>
    rcases ksLoadBody_cases kdata s with ⟨-, hb⟩ | ⟨-, -, hb⟩ | ⟨hv, -, -, -⟩
    · cases hb.symm.trans h
    · cases hb.symm.trans h
    · exact .inr ⟨hv, kdata, rfl⟩
  | itConfig mask sel =>
    rcases itConfigBody_cases mask sel s with ⟨-, hb⟩ | ⟨-, hb⟩ | ⟨-, hb⟩
    all_goals cases hb.symm.trans h
    all_goals exact .inl ⟨rfl, rfl⟩
  | frCipher =>
    rcases frCipherBody_cases s with ⟨-, hb⟩ | ⟨-, ⟨out, -, hb⟩ | ⟨e, hb, -⟩⟩
    all_goals cases hb.symm.trans h
    exact .inl ⟨rfl, rfl⟩
  | frSetPayload n value =>
    rcases frSetPayloadBody_cases n value s with ⟨_, hb⟩ | ⟨-, hb⟩
    all_goals cases hb.symm.trans h
    exact .inl ⟨rfl, rfl⟩
  | ftNew | ftSetIndex | ftSetTag | frNew | frLoadBytes =>
    cases h
    exact .inl ⟨rfl, rfl⟩
  | _ => exact absurd rfl hread

theorem exec_keepsKey {i : Instr} {s t : State} (h : exec i s = .next t) :
    s.KeepsKey t ∨ s.ksValid = false ∧ ∃ kdata, i = .ksLoad kdata := by
  rw [exec_eq_perform] at h
  rcases perform_eq_next h with ⟨-, -, u, r, hb, rfl⟩ | ⟨S, rfl, -⟩
  · rcases bodyOf_keepsKey hb with ⟨hkey, hlen⟩ | hfirst
    · exact .inl ⟨hkey, hlen⟩
    · exact .inr hfirst
  · exact .inl ⟨rfl, rfl⟩

/-- Settles O19: idling and an illegal command keep the key, and so does every operation but a first KS_LOAD. -/
theorem keyChangesOnlyByFirstLoadOrReset : Obligations.KeyChangesOnlyByFirstLoadOrReset := by
  intro s t h hchange
  have hnot : ¬ s.KeepsKey t := fun ⟨hkey, hlen⟩ => hchange.elim (absurd hkey) (absurd hlen)
  rcases step_cases s with ⟨-, hstep⟩ | ⟨rest, hin, -⟩ | ⟨c, rest, e, -, -, hstep⟩ | ⟨c, rest, i, hin, hdec, hstep⟩
  · cases hstep.symm.trans h
    exact absurd ⟨rfl, rfl⟩ hnot
  · exact .inl ⟨rest, hin⟩
  · cases hstep.symm.trans h
    obtain ⟨S, -, hr⟩ := s.popInput.rejectIllegal_eq_raise
    exact absurd (hr ▸ ⟨rfl, rfl⟩) hnot
  · rcases exec_keepsKey (hstep.symm.trans h) with ⟨hkey, hlen⟩ | ⟨hv, kdata, rfl⟩
    · exact absurd ⟨hkey, hlen⟩ hnot
    · exact .inr ⟨hv, c, rest, kdata, hin, hdec⟩

/-! ## KS_LOAD (40_keystore.md R80) -/

theorem readByte_congr {m m' : Memory} {a : Nat} (h : readCell m a = readCell m' a) : readByte m a = readByte m' a := by
  rw [readByte, readByte, h]

/-- A byte inside a block that fits reads as the block's byte. -/
theorem readByte_writeCells_inside (m : Memory) {bs : List Byte} {a x : Nat} (h : x < bs.length)
    (hcap : a + bs.length ≤ Config.keyCapBytes) : readByte (writeCells m a bs) (a + x) = .ok bs[x] := by
  have hread := readCell_writeCells_inside m bs a x h
  rw [List.getElem?_eq_getElem h] at hread
  exact readByte_eq_ok.2 ⟨by omega, hread⟩

theorem readByte_writeCells_outside (m : Memory) {bs : List Byte} {a y : Nat} (h : y < a ∨ a + bs.length ≤ y) :
    readByte (writeCells m a bs) y = readByte m y :=
  readByte_congr (readCell_writeCells_outside m bs a y h)

/-- Settles O29: the three outcomes are the branches of `ksLoadBody_eq`, and the new key memory is the old one with the
blob written at 0. -/
theorem ksLoadStoresTheBlobOnce : Obligations.KsLoadStoresTheBlobOnce := by
  intro s kdata hf
  have hbody : bodyOf (.ksLoad kdata) s = _ := ksLoadBody_eq kdata s
  refine ⟨fun hv => ?locked, fun hv hbad => ?illegal, fun hv hmod hlen => ?stored⟩
  case locked =>
    rw [if_pos hv] at hbody
    rw [exec_of_raise hf rfl hbody, State.raise_of_not_fatal s rfl]
  case illegal =>
    rw [if_neg (by simp [hv]), if_pos hbad] at hbody
    exact exec_of_fatal hf rfl rfl hbody
  case stored =>
    rw [if_neg (by simp [hv]), if_neg (by omega)] at hbody
    have hfits : 0 + kdata.length ≤ Config.keyCapBytes := by rwa [Nat.zero_add]
    have hn : (BitVec.ofNat 32 kdata.length).toNat = kdata.length := Nat.mod_eq_of_lt (by omega)
    refine ⟨writeCells s.key 0 kdata, BitVec.ofNat 32 kdata.length, hn, exec_of_ok hf rfl hbody, fun a ha => ?_,
      fun a ha => ?_, fun hwf => writeCells_wf hwf kdata 0 hfits⟩
    · simpa using readByte_writeCells_inside s.key ha hfits
    · exact readByte_writeCells_outside s.key (.inr (by rwa [Nat.zero_add]))

/-! ## KS_SUBKEY (40_keystore.md R82, R83) -/

/-- Byte `k` of word `j` of a window that is read is the key byte at its address. -/
theorem subkey_byte {s : State} {bits off len : Nat} {ws : List (BitVec bits)} (h : s.subkey bits off len = .ok ws)
    {j k : Nat} (hj : j < ws.length) (hk : k < bits / 8) :
    readByte s.key ((off + j) * (bits / 8) + k) = .ok (ws[j].extractLsb' (8 * k) 8) := by
  obtain ⟨-, hwords⟩ := subkey_eq_ok h
  exact keyWord_eq_ok (hwords j hj) k hk

/-- Settles O30: the pseudocode's four ends are the chain's four cases, and usable key material leaves no stop. -/
theorem ksSubkeyReturnsTheWindow : Obligations.KsSubkeyReturnsTheWindow := by
  intro s w off len hf hv hs
  have htotal : s.keyLen.toNat / (w.bits / 8) = s.totalWords w.bits := rfl
  rw [htotal]
  rcases ksSubkeyBody_cases w off len s with ⟨halign, hb⟩ | ⟨halign, hlen, hb⟩ | ⟨halign, hlen, hoff, hb⟩ |
    ⟨halign, hoff, ⟨ws, hws, hb⟩ | ⟨f, hstop, -⟩⟩
  · rw [if_pos halign]
    exact exec_of_fatal hf hv rfl hb
  · rw [if_neg halign.not_gt, if_pos hlen]
    exact exec_of_fatal hf hv rfl hb
  · rw [if_neg halign.not_gt, if_neg hlen.not_gt, if_pos hoff]
    exact exec_of_fatal hf hv rfl hb
  · rw [if_neg halign.not_gt, if_neg (le_of_add_le_right hoff).not_gt, if_neg hoff.not_gt]
    obtain ⟨hcount, -⟩ := subkey_eq_ok hws
    exact ⟨ws, exec_of_ok hf hv hb, hcount, fun j hj k hk => subkey_byte hws hj hk⟩
  · obtain ⟨ws, hws⟩ := subkey_of_ready hs hoff
    cases hstop.symm.trans hws

theorem exec_ksSubkey_of_misaligned {s : State} {w : WordWidth} (off len : Word) (hf : s.fault = 0#4)
    (hv : s.ksValid = true) (ha : Config.keyAlign < w.bits / 8) :
    exec (.ksSubkey w off len) s = .next (s.latched .misalignedAccess 3) :=
  exec_of_fatal hf hv rfl (if_pos ha)

/-- MisalignedAccess is answered to a width above KEY_ALIGN alone; the common checks raise other statuses. -/
theorem exec_ksSubkey_ne_misaligned {w : WordWidth} (ha : w.bits / 8 ≤ Config.keyAlign) (s : State) (off len : Word) :
    exec (.ksSubkey w off len) s ≠ .next (s.latched .misalignedAccess 3) := by
  intro h
  rw [exec_eq_perform] at h
  rcases perform_eq_next h with ⟨-, -, u, r, hb, ht⟩ | ⟨S, ht, hS⟩
  · obtain rfl := state_eq_of_readsAlike (bodyOf_readsAlike rfl s) hb
    cases List.append_cancel_left (congrArg State.outputs ht)
  · cases List.append_cancel_left (congrArg State.outputs ht)
    rcases hS with ⟨-, hS⟩ | ⟨-, -, hS⟩ | ⟨-, -, hb⟩
    · cases hS
    · cases hS
    · rcases ksSubkeyBody_cases w off len s with ⟨hlt, -⟩ | ⟨-, -, hb'⟩ | ⟨-, -, -, hb'⟩ |
        ⟨-, -, ⟨ws, -, hb'⟩ | ⟨f, -, hb', -⟩⟩
      · exact hlt.not_ge ha
      all_goals cases hb'.symm.trans hb

/-- Settles O31: the 64-bit view is wider than a KEY_ALIGN of 4 and not than one of 8; no other view is wider than
either. -/
theorem servedWidthsFollowKeyAlign : Obligations.ServedWidthsFollowKeyAlign := by
  refine ⟨?wide, fun s w off len hw => ?narrow⟩
  case wide =>
    rcases Config.keyAlign_eq with h4 | h8
    · have ha : Config.keyAlign < WordWidth.w64.bits / 8 := by rw [h4]; decide
      exact .inl ⟨h4, fun s off len hf hv => exec_ksSubkey_of_misaligned off len hf hv ha⟩
    · have ha : WordWidth.w64.bits / 8 ≤ Config.keyAlign := by rw [h8]; decide
      exact .inr ⟨h8, exec_ksSubkey_ne_misaligned ha⟩
  case narrow =>
    exact exec_ksSubkey_ne_misaligned ((WordWidth.bytes_le_four hw).trans Config.wordBytes_le_keyAlign) s off len

end Sys2Proof.Machine
end

section
/-! IndexTransform: what IT_CONFIG writes, the offset IT_OFFSET answers, and the offsets a sweep of the index visits
(41_index_transform.md R90 to R94). -/

namespace Sys2Proof.Machine

/-- Settles O32: the three values of `hash_sel` are the three ends of the pseudocode. -/
theorem itConfigSetsMaskAndHash : Obligations.ItConfigSetsMaskAndHash := by
  intro s mask sel hf
  rcases itConfigBody_cases mask sel s with ⟨hsel, hb⟩ | ⟨hsel, hb⟩ | ⟨hsel, hb⟩
  · exact ⟨fun _ => exec_of_ok hf rfl hb, by omega, by omega⟩
  · exact ⟨by omega, fun _ => exec_of_ok hf rfl hb, by omega⟩
  · refine ⟨by omega, by omega, fun _ => ?_⟩
    rw [exec_of_raise (i := .itConfig mask sel) hf rfl hb, State.raise_of_not_fatal s rfl]

/-! ## IT_OFFSET (41_index_transform.md R92, R93) -/

theorem hashSel_apply_eq_hashedIndex (s : State) (index : Word) :
    s.hashSel.apply (index ^^^ s.mask) = s.hashedIndex index := rfl

theorem hashedIndex_of_identity {s : State} (h : s.hashSel = .identity) (index : Word) :
    s.hashedIndex index = index ^^^ s.mask := by
  rw [← hashSel_apply_eq_hashedIndex, h, HashSel.apply]

/-- Settles O33: the remainder is at most the hashed index, so RESULT holds it whole. -/
theorem itOffsetReducesTheHashedIndex : Obligations.ItOffsetReducesTheHashedIndex := by
  intro s index len ⟨hf, hk, ht⟩
  have hn : (needsOf (.itOffset index len)).met s = true := Needs.met_keyAndTransform.2 ⟨hk, ht⟩
  have htotal : s.keyLen.toNat / 4 = s.totalWords 32 := rfl
  rw [htotal]
  rcases itOffsetBody_cases index len s with ⟨hlen, hb⟩ | ⟨hlen, hb⟩
  · exact ⟨fun _ => exec_of_fatal hf hn rfl hb, fun h => absurd h hlen.not_ge⟩
  · refine ⟨fun h => absurd h hlen.not_gt, fun _ => ⟨_, ?_, exec_of_ok hf hn hb⟩⟩
    rw [hashSel_apply_eq_hashedIndex, BitVec.toNat_ofNat]
    exact Nat.mod_eq_of_lt ((Nat.mod_le _ _).trans_lt (BitVec.isLt _))

/-! ## The sweep of the index (41_index_transform.md R94 b) -/

/-- Two numbers of the same aligned run of `2^b` differ in their low `b` bits only. -/
theorem xor_lt_two_pow_of_div_eq {x y b : Nat} (h : x / 2 ^ b = y / 2 ^ b) : x ^^^ y < 2 ^ b := by
  rw [← Nat.div_eq_zero_iff_lt (Nat.two_pow_pos b), ← Nat.shiftRight_eq_div_pow, Nat.shiftRight_xor_distrib,
    Nat.shiftRight_eq_div_pow, Nat.shiftRight_eq_div_pow, h, Nat.xor_self]

/-- An aligned run of `2^b` numbers meets every residue modulo an `m` of `2^b` or less. -/
theorem exists_mod_eq_in_aligned_run {m b off : Nat} (hm : m ≤ 2 ^ b) (hoff : off < m) (q : Nat) :
    ∃ x, x / 2 ^ b = q ∧ x % m = off := by
  have hmem : off ∈ (Finset.Ico (2 ^ b * q) (2 ^ b * q + m)).image (· % m) := by
    rw [Nat.image_Ico_mod]
    exact Finset.mem_range.2 hoff
  obtain ⟨x, hx, hmod⟩ := Finset.mem_image.1 hmem
  obtain ⟨hlo, hhi⟩ := Finset.mem_Ico.1 hx
  refine ⟨x, Nat.div_eq_of_lt_le ?_ ?_, hmod⟩
  · rwa [Nat.mul_comm]
  · rw [Nat.mul_comm, Nat.mul_succ]
    omega

/-- Whatever the mask, some index below `2^b` is masked to a number of a given residue: the masked indices are the
aligned run of `2^b` that the mask lies in. -/
theorem exists_index_masked_mod_eq {m b off : Nat} (mask : Word) (hb : b ≤ 32) (hm : m ≤ 2 ^ b) (hoff : off < m) :
    ∃ index : Word, index.toNat < 2 ^ b ∧ (index ^^^ mask).toNat % m = off := by
  obtain ⟨x, hrun, hmod⟩ := exists_mod_eq_in_aligned_run hm hoff (mask.toNat / 2 ^ b)
  have hindex : x ^^^ mask.toNat < 2 ^ b := xor_lt_two_pow_of_div_eq hrun
  have hword : x ^^^ mask.toNat < 2 ^ 32 := hindex.trans_le (Nat.pow_le_pow_right Nat.two_pos hb)
  have htoNat : (BitVec.ofNat 32 (x ^^^ mask.toNat)).toNat = x ^^^ mask.toNat := Nat.mod_eq_of_lt hword
  refine ⟨BitVec.ofNat 32 (x ^^^ mask.toNat), by rwa [htoNat], ?_⟩
  rwa [BitVec.toNat_xor, htoNat, Nat.xor_xor_cancel_right]

/-- Settles O35: the identity hash hands the masked index on to the reduction. -/
theorem identitySweepVisitsEveryOffset : Obligations.IdentitySweepVisitsEveryOffset := by
  intro s len b off hs hid hlen hb hmax hoff
  obtain ⟨index, hindex, hmod⟩ := exists_index_masked_mod_eq s.mask hb hmax hoff
  obtain ⟨-, hanswer⟩ := itOffsetReducesTheHashedIndex s index len hs
  obtain ⟨v, hv, hexec⟩ := hanswer hlen
  rw [hashedIndex_of_identity hid, hmod] at hv
  exact ⟨index, v, hindex, hv, hexec⟩

end Sys2Proof.Machine
end

section
/-! BlockCipher: BC_APPLY on bytes, and that it undoes itself (42_block_cipher.md R101 to R103). -/

namespace Sys2Proof.Machine

/-! ## The datapath byte by byte (42_block_cipher.md R103) -/

/-- XORing a block word by word with a window of words is XORing it byte by byte. -/
theorem getElem_bytesOfWords_xor {n i k : Nat} {block : List Byte} {sk : List Word} (hblock : block.length = 4 * n)
    (hsk : sk.length = n) (hi : i < n) (hk : k < 4)
    (h : 4 * i + k < (bytesOfWords (List.zipWith (· ^^^ ·) ((List.range n).map (wordAt block)) sk)).length) :
    (bytesOfWords (List.zipWith (· ^^^ ·) ((List.range n).map (wordAt block)) sk))[4 * i + k] =
      block[4 * i + k] ^^^ sk[i].extractLsb' (8 * k) 8 := by
  rw [getElem_bytesOfWords _ i k (by simp [hsk, hi]) hk, List.getElem_zipWith, List.getElem_map, List.getElem_range,
    BitVec.extractLsb'_xor, wordAt_byte block i k hk (by omega)]

theorem bcApply_length {s : State} {index : Word} {block out : List Byte} (h : s.bcApply index block = .ok out) :
    out.length = 28 := by
  obtain ⟨off, sk, -, hsk, rfl⟩ := bcApply_eq_ok h
  obtain ⟨hcount, -⟩ := subkey_eq_ok hsk
  simp [hcount]

/-- The key byte at the cipher's offset is what the datapath changes the block's byte by. -/
theorem bcApply_byte {s : State} {index : Word} {block out : List Byte} (h : s.bcApply index block = .ok out)
    (hb : block.length = 28) {j : Nat} (hj : j < block.length) (hj' : j < out.length) :
    readByte s.key (4 * s.cipherOffset index + j) = .ok (block[j] ^^^ out[j]) := by
  obtain ⟨off, sk, hoff, hsk, rfl⟩ := bcApply_eq_ok h
  obtain ⟨-, rfl, -⟩ := offsetFor_eq_ok hoff
  obtain ⟨hcount, -⟩ := subkey_eq_ok hsk
  obtain ⟨i, k, hk, rfl⟩ : ∃ i k, k < 4 ∧ j = 4 * i + k := ⟨j / 4, j % 4, by omega, by omega⟩
  have hi : i < sk.length := by omega
  have hread := subkey_byte hsk hi hk
  rw [getElem_bytesOfWords_xor hb hcount (by omega) hk, xor_cancel_left, ← hread]
  congr 1
  show 4 * s.cipherOffset index + (4 * i + k) = (s.cipherOffset index + i) * 4 + k
  omega

/-- The datapath undoes itself (R102): both passes read the same key bytes. -/
theorem bcApply_involutive {s : State} {index : Word} {block out : List Byte} (h : s.bcApply index block = .ok out)
    (hb : block.length = 28) : s.bcApply index out = .ok block := by
  have hout := bcApply_length h
  obtain ⟨off, sk, hoff, hsk, -⟩ := bcApply_eq_ok h
  obtain ⟨back, hback⟩ : ∃ back, s.bcApply index out = .ok back := ⟨_, bcApply_of_ok out hoff hsk⟩
  have hlen := bcApply_length hback
  suffices back = block by rw [hback, this]
  refine List.ext_getElem (by omega) fun j hj hj' => ?_
  have hkey := (bcApply_byte hback hout (by omega) hj).symm.trans (bcApply_byte h hb hj' (by omega))
  rw [Except.ok.injEq, BitVec.xor_comm] at hkey
  exact (BitVec.xor_left_inj _).1 hkey

/-! ## BC_APPLY (42_block_cipher.md R101, R102) -/

theorem bcApplyBody_of_ok {s : State} {index : Word} {block : Vector Byte 28} {out : List Byte}
    (h : s.bcApply index block.toList = .ok out) : bodyOf (.bcApply index block) s = .ok (s, .bytes out) := by
  rw [bodyOf, bcApplyBody, h]
  rfl

/-- A BC_APPLY that answers OK with bytes has passed the common checks, and the bytes are the datapath's. -/
theorem exec_bcApply_eq_ok {s t : State} {index : Word} {block : Vector Byte 28} {out : List Byte}
    (h : exec (.bcApply index block) s = .next t) (hout : t.outputs = s.outputs ++ [⟨.ok, .bytes out⟩]) :
    s.fault = 0#4 ∧ (needsOf (.bcApply index block)).met s = true ∧ s.bcApply index block.toList = .ok out ∧
      t = s.complete (.bytes out) := by
  rcases exec_eq_next_of_readsOnly rfl h with ⟨hf, hn, r, hb, rfl⟩ | ⟨S, rfl⟩
  · cases List.append_cancel_left hout
    rcases bcApplyBody_cases index block s with ⟨-, hb'⟩ | ⟨-, ⟨out', hdata, hb'⟩ | ⟨f, hb', -⟩⟩
    all_goals cases hb'.symm.trans hb
    exact ⟨hf, hn, hdata, rfl⟩
  · cases List.append_cancel_left hout

/-- Settles O36: key material of 7 words lets the datapath complete, and the key byte read is the one
`bcApply_byte` gives. -/
theorem bcApplyXorsTheKeyBytes : Obligations.BcApplyXorsTheKeyBytes := by
  intro s index block ⟨hf, hkv, hiv⟩ hready hlen
  have hwords : 7 ≤ s.totalWords 32 := by simp only [State.totalWords]; omega
  obtain ⟨out, hout⟩ := bcApply_of_ready hready hwords index block.toList
  have hcount := bcApply_length hout
  refine ⟨⟨out.toArray, hcount⟩, exec_of_ok hf (Needs.met_keyAndTransform.2 ⟨hkv, hiv⟩)
    (bcApplyBody_of_ok hout), fun j => ⟨_, bcApply_byte hout block.length_toList (by simp) (by omega), ?_⟩⟩
  exact (xor_cancel_left _ _).symm

/-- Settles O38: the first BC_APPLY leaves the key and the transform as they are, so the second one runs the datapath
of the same state. -/
theorem bcApplyIsAnInvolution : Obligations.BcApplyIsAnInvolution := by
  intro s t index block out h hout
  obtain ⟨hf, hn, hdata, rfl⟩ := exec_bcApply_eq_ok h hout
  have hback : (s.complete (.bytes out.toList)).bcApply index out.toList = .ok block.toList :=
    (bcApply_congr ⟨rfl, fun _ _ => rfl⟩ ⟨rfl, rfl⟩ index out.toList).trans
      (bcApply_involutive hdata block.length_toList)
  exact exec_of_ok hf hn (bcApplyBody_of_ok hback)

end Sys2Proof.Machine
end

section
/-! FrameTag: the two fields of the tag word, each by what it reads and what a word made of two fields reads back, and
the six FT operations, which complete in every state without a latched fault (43_frame_tag.md R111 to R117). -/

namespace Sys2Proof.Machine

/-! ## The fields of the tag word (30_encoding.md R61, R67) -/

theorem toNat_indexField (w : Word) : (indexField w).toNat = w.toNat % 2 ^ 31 := BitVec.extractLsb'_toNat 0 31 w

theorem toNat_tagOperand (w : Word) : (tagOperand w).toNat = w.toNat % 2 := BitVec.extractLsb'_toNat 0 1 w

/-- Bit 31 is the top bit of the word, so the quotient needs no reduction. -/
theorem toNat_tagField (w : Word) : (tagField w).toNat = w.toNat / 2 ^ 31 := by
  have hbits : (tagField w).toNat = (w.toNat >>> 31) % 2 := BitVec.extractLsb'_toNat 31 1 w
  rw [hbits, Nat.shiftRight_eq_div_pow]
  omega

theorem toNat_tagWord (tag : BitVec Config.tagBits) (index : BitVec Config.indexBits) :
    (tagWord tag index).toNat = tag.toNat * 2 ^ 31 + index.toNat := by
  rw [tagWord, BitVec.toNat_append, ← Nat.shiftLeft_add_eq_or_of_lt index.isLt, Nat.shiftLeft_eq]

@[simp] theorem indexField_tagWord (tag : BitVec Config.tagBits) (index : BitVec Config.indexBits) :
    indexField (tagWord tag index) = index := BitVec.extractLsb'_append_eq_right

@[simp] theorem tagField_tagWord (tag : BitVec Config.tagBits) (index : BitVec Config.indexBits) :
    tagField (tagWord tag index) = tag := BitVec.extractLsb'_append_eq_left

/-! ## The tag word functions as numbers (43_frame_tag.md R111 to R115) -/

theorem toNat_ftGetIndex_eq_field (t : Word) : (ftGetIndex t).toNat = (indexField t).toNat :=
  BitVec.toNat_setWidth_of_le (by decide)

theorem toNat_ftGetTag_eq_field (t : Word) : (ftGetTag t).toNat = (tagField t).toNat :=
  BitVec.toNat_setWidth_of_le (by decide)

theorem toNat_ftGetIndex (t : Word) : (ftGetIndex t).toNat = t.toNat % 2 ^ 31 := by
  rw [toNat_ftGetIndex_eq_field, toNat_indexField]

theorem toNat_ftGetTag (t : Word) : (ftGetTag t).toNat = t.toNat / 2 ^ 31 := by
  rw [toNat_ftGetTag_eq_field, toNat_tagField]

theorem toNat_ftNew (index : Word) : (ftNew index).toNat = index.toNat % 2 ^ 31 := by
  have hzero : (0 : BitVec Config.tagBits).toNat = 0 := rfl
  rw [ftNew, toNat_tagWord, toNat_indexField, hzero, Nat.zero_mul, Nat.zero_add]

theorem toNat_ftSetIndex (t index : Word) :
    (ftSetIndex t index).toNat = t.toNat / 2 ^ 31 * 2 ^ 31 + index.toNat % 2 ^ 31 := by
  rw [ftSetIndex, toNat_tagWord, toNat_tagField, toNat_indexField]

theorem toNat_ftSetTag (t tag : Word) : (ftSetTag t tag).toNat = tag.toNat % 2 * 2 ^ 31 + t.toNat % 2 ^ 31 := by
  rw [ftSetTag, toNat_tagWord, toNat_tagOperand, toNat_indexField]

/-! ## Reading a field back (43_frame_tag.md R117) -/

theorem ftGetIndex_tagWord (tag : BitVec Config.tagBits) (index : BitVec Config.indexBits) :
    ftGetIndex (tagWord tag index) = index.setWidth 32 := by
  rw [ftGetIndex, indexField_tagWord]

theorem ftGetTag_tagWord (tag : BitVec Config.tagBits) (index : BitVec Config.indexBits) :
    ftGetTag (tagWord tag index) = tag.setWidth 32 := by
  rw [ftGetTag, tagField_tagWord]

theorem ftGetIndex_ftSetIndex (t a : Word) : ftGetIndex (ftSetIndex t a) = ftGetIndex a :=
  ftGetIndex_tagWord _ _

theorem ftGetIndex_ftSetTag (t a : Word) : ftGetIndex (ftSetTag t a) = ftGetIndex t :=
  ftGetIndex_tagWord _ _

theorem ftGetIndex_ftNew (a : Word) : ftGetIndex (ftNew a) = ftGetIndex a :=
  ftGetIndex_tagWord _ _

theorem ftGetTag_ftSetIndex (t a : Word) : ftGetTag (ftSetIndex t a) = ftGetTag t :=
  ftGetTag_tagWord _ _

theorem ftGetTag_ftNew (a : Word) : ftGetTag (ftNew a) = 0 :=
  ftGetTag_tagWord _ _

theorem toNat_ftGetTag_ftSetTag (t a : Word) : (ftGetTag (ftSetTag t a)).toNat = a.toNat % 2 := by
  rw [toNat_ftGetTag_eq_field, ftSetTag, tagField_tagWord, toNat_tagOperand]

/-- An index that fits its field is returned whole. -/
theorem ftGetIndex_of_lt {a : Word} (h : a.toNat < 2 ^ 31) : ftGetIndex a = a :=
  BitVec.eq_of_toNat_eq ((toNat_ftGetIndex a).trans (Nat.mod_eq_of_lt h))

/-- Settles O45: each function builds its word from two fields, and a word made of two fields gives both back. -/
theorem tagWordFieldsAreIsolated : Obligations.TagWordFieldsAreIsolated := by
  intro t a
  refine ⟨toNat_ftGetTag_ftSetTag t a, ?setIndex, fun ha => ?setFittingIndex, ftGetTag_ftSetIndex t a,
    ftGetIndex_ftSetTag t a, ftGetTag_ftNew a, ?newIndex, ?wholeWord⟩
  case setIndex => rw [ftGetIndex_ftSetIndex, toNat_ftGetIndex]
  case setFittingIndex => rw [ftGetIndex_ftSetIndex, ftGetIndex_of_lt ha]
  case newIndex => rw [ftGetIndex_ftNew, toNat_ftGetIndex]
  case wholeWord => rw [toNat_ftGetTag, toNat_ftGetIndex, Nat.div_add_mod']

/-! ## The FT operations (43_frame_tag.md R111 to R116) -/

/-- Settles O39: the word written is the index field under a zero tag. -/
theorem ftNewTruncatesTheIndex : Obligations.FtNewTruncatesTheIndex :=
  fun _ index hf => ⟨ftNew index, toNat_ftNew index, exec_of_ok hf rfl rfl⟩

/-- Settles O40: the index field is zero-extended, so bit 31 of the result is 0. -/
theorem ftGetIndexReadsTheIndexField : Obligations.FtGetIndexReadsTheIndexField :=
  fun s hf => ⟨ftGetIndex s.tagw, toNat_ftGetIndex s.tagw, exec_of_ok hf rfl rfl⟩

/-- Settles O41: the word written is the old tag field over the operand's index field. -/
theorem ftSetIndexKeepsTheTag : Obligations.FtSetIndexKeepsTheTag :=
  fun s index hf => ⟨ftSetIndex s.tagw index, toNat_ftSetIndex s.tagw index, exec_of_ok hf rfl rfl⟩

/-- Settles O42: the tag field is shifted down. -/
theorem ftGetTagReadsTheTagField : Obligations.FtGetTagReadsTheTagField :=
  fun s hf => ⟨ftGetTag s.tagw, toNat_ftGetTag s.tagw, exec_of_ok hf rfl rfl⟩

/-- Settles O43: the word written is the operand's bit 0 over the old index field. -/
theorem ftSetTagKeepsTheIndex : Obligations.FtSetTagKeepsTheIndex :=
  fun s tag hf => ⟨ftSetTag s.tagw tag, toNat_ftSetTag s.tagw tag, exec_of_ok hf rfl rfl⟩

/-- Settles O44: the result is a constant, and no valid flag is needed. -/
theorem ftTagBitsIsOne : Obligations.FtTagBitsIsOne :=
  fun _ hf => exec_of_ok hf rfl rfl

end Sys2Proof.Machine
end

section
/-! Frame: the 32 bytes of a frame and the frame they spell, the payload as the cipher's block, and the six FR
operations (44_frame.md R125 to R132). -/

namespace Sys2Proof.Machine

/-! ## A frame and its bytes (44_frame.md R126, R127) -/

/-- The frame a list of 32 bytes spells: what an FR_LOAD_BYTES that completes leaves in the frame registers (R127). -/
def frameOfBytes (bs : List Byte) : Vector Word 8 := Vector.ofFn fun i => wordAt bs i

theorem frameOfBytes_getElem (bs : List Byte) {i : Nat} (hi : i < 8) : (frameOfBytes bs)[i] = wordAt bs i :=
  Vector.getElem_ofFn hi

@[simp] theorem frameBytes_length (s : State) : s.frameBytes.length = 32 := by
  rw [State.frameBytes, bytesOfWords_length, Vector.length_toList]

/-- Byte `4 i + k` of a frame is byte `k` of its word `i` (20_memory.md R45). -/
theorem frameBytes_getElem (s : State) {i k : Nat} (hi : i < 8) (hk : k < 4) (h : 4 * i + k < s.frameBytes.length) :
    s.frameBytes[4 * i + k] = s.fw[i].extractLsb' (8 * k) 8 :=
  getElem_bytesOfWords s.fw.toList i k (by simpa using hi) hk h

/-- The bytes of the frame that 32 bytes spell are those bytes. -/
theorem frameBytes_of_fw_eq {s : State} {bs : List Byte} (h : s.fw = frameOfBytes bs) (hlen : bs.length = 32) :
    s.frameBytes = bs := by
  have hwords : s.fw.toList = (List.range 8).map (wordAt bs) := by
    rw [h, frameOfBytes, Vector.toList_ofFn, List.ofFn_eq_map, ← List.map_coe_finRange_eq_range, List.map_map]
    rfl
  rw [State.frameBytes, hwords, bytesOfWords_wordAt bs 8 hlen]

/-- The frame that a frame's bytes spell is that frame. -/
theorem frameOfBytes_frameBytes (s : State) : frameOfBytes s.frameBytes = s.fw := by
  refine Vector.ext fun i hi => ?_
  rw [frameOfBytes_getElem, State.frameBytes, wordAt_bytesOfWords _ i (by simpa using hi), Vector.getElem_toList]

theorem exec_frAsBytes {s : State} (hf : s.fault = 0#4) :
    exec .frAsBytes s = .next (s.complete (.bytes s.frameBytes)) :=
  exec_of_ok hf rfl rfl

theorem exec_frLoadBytes {s : State} (hf : s.fault = 0#4) (wdata : Vector Byte 32) :
    exec (.frLoadBytes wdata) s = .next ((s.withFrame (frameOfBytes wdata.toList)).complete .noResult) :=
  exec_of_ok hf rfl rfl

/-- Without a latched fault FR_AS_BYTES answers the bytes of the frame and leaves all else. -/
theorem exec_frAsBytes_eq_next {s t : State} {out : List Byte} (h : exec .frAsBytes s = .next t)
    (hout : t.outputs = s.outputs ++ [⟨.ok, .bytes out⟩]) (hf : s.fault = 0#4) :
    t = s.complete (.bytes out) ∧ out = s.frameBytes := by
  cases (exec_frAsBytes hf).symm.trans h
  cases List.append_cancel_left hout
  exact ⟨rfl, rfl⟩

/-- Settles O47: the bytes answered are the frame's. -/
theorem frAsBytesReturnsTheFrame : Obligations.FrAsBytesReturnsTheFrame :=
  fun s hf => ⟨⟨s.frameBytes.toArray, frameBytes_length s⟩, exec_frAsBytes hf,
    fun _ _ hi hk => frameBytes_getElem s hi hk (by rw [frameBytes_length]; omega)⟩

/-- Settles O48: each register is the word its four bytes spell. -/
theorem frLoadBytesWritesTheFrame : Obligations.FrLoadBytesWritesTheFrame := by
  intro s wdata hf
  refine ⟨frameOfBytes wdata.toList, exec_frLoadBytes hf wdata, fun i k hi hk => ?_⟩
  rw [frameOfBytes_getElem, wordAt_byte _ i k hk (by rw [Vector.length_toList]; omega), Vector.getElem_toList]

/-- Settles O49: a frame and its bytes determine each other. -/
theorem frameBytesRoundTrip : Obligations.FrameBytesRoundTrip := by
  refine ⟨fun s t wdata hf h => ?loadThenRead, fun s t out hf h hout => ?readThenLoad⟩
  case loadThenRead =>
    cases (exec_frLoadBytes hf wdata).symm.trans h
    rw [exec_frAsBytes (by exact hf), frameBytes_of_fw_eq rfl wdata.length_toList]
    rfl
  case readThenLoad =>
    obtain ⟨rfl, hbytes⟩ := exec_frAsBytes_eq_next h hout hf
    rw [exec_frLoadBytes (by exact hf), hbytes, frameOfBytes_frameBytes]
    rfl

/-! ## The payload as a block (44_frame.md R130) -/

/-- The frame with a tag word and the payload words that a block of 28 bytes spells. -/
def frameOfBlock (tagw : Word) (block : List Byte) : Vector Word 8 :=
  Vector.ofFn (Fin.cases tagw fun i => wordAt block i)

@[simp] theorem frameOfBlock_zero (tagw : Word) (block : List Byte) : (frameOfBlock tagw block)[0] = tagw := rfl

theorem frameOfBlock_succ (tagw : Word) (block : List Byte) {i : Nat} (hi : i < 7) :
    (frameOfBlock tagw block)[i + 1] = wordAt block i :=
  Vector.getElem_ofFn (Nat.succ_lt_succ hi)

theorem frameOfBlock_set_zero (tagw v : Word) (block : List Byte) :
    (frameOfBlock tagw block).set 0 v = frameOfBlock v block := by
  refine Vector.ext fun i hi => ?_
  cases i with
  | zero => rw [Vector.getElem_set_self, frameOfBlock_zero]
  | succ i => rw [Vector.getElem_set_ne _ _ (Nat.succ_ne_zero i).symm, frameOfBlock_succ _ _ (by omega),
      frameOfBlock_succ _ _ (by omega)]

@[simp] theorem payloadBytes_length (s : State) : s.payloadBytes.length = 28 := by
  rw [State.payloadBytes, bytesOfWords_length, List.length_map, List.length_finRange]

/-- Word `i` of the payload's block is FW[i + 1] (10_state.md R23). -/
theorem wordAt_payloadBytes (s : State) {i : Nat} (hi : i < 7) : wordAt s.payloadBytes i = s.fw[i + 1] := by
  rw [State.payloadBytes, wordAt_bytesOfWords _ i (by simpa using hi), List.getElem_map, List.getElem_finRange]
  rfl

/-- Two blocks of 28 bytes that spell the same seven words are equal. -/
theorem block_ext {a b : List Byte} (ha : a.length = 28) (hb : b.length = 28)
    (h : ∀ i < 7, wordAt a i = wordAt b i) : a = b := by
  rw [← bytesOfWords_wordAt a 7 ha, ← bytesOfWords_wordAt b 7 hb,
    List.map_congr_left fun i hi => h i (List.mem_range.1 hi)]

theorem tagw_of_fw_eq {s : State} {tagw : Word} {block : List Byte} (h : s.fw = frameOfBlock tagw block) :
    s.tagw = tagw :=
  tagw_congr (t := s.withFrame (frameOfBlock tagw block)) h

theorem payloadBytes_of_fw_eq {s : State} {tagw : Word} {block : List Byte} (h : s.fw = frameOfBlock tagw block)
    (hlen : block.length = 28) : s.payloadBytes = block := by
  refine block_ext (payloadBytes_length s) hlen fun i hi => ?_
  rw [wordAt_payloadBytes s hi]
  simp only [h, frameOfBlock_succ tagw block hi]

theorem frameOfBlock_payloadBytes (s : State) : frameOfBlock s.tagw s.payloadBytes = s.fw := by
  refine Vector.ext fun i hi => ?_
  cases i with
  | zero => rfl
  | succ i => rw [frameOfBlock_succ _ _ (by omega), wordAt_payloadBytes s (by omega)]

/-- A tag word written leaves the payload's block alone. -/
theorem payloadBytes_set_zero (s : State) (v : Word) : (s.withFrame (s.fw.set 0 v)).payloadBytes = s.payloadBytes := by
  refine block_ext (payloadBytes_length _) (payloadBytes_length s) fun i hi => ?_
  rw [wordAt_payloadBytes s hi, wordAt_payloadBytes _ hi]
  exact Vector.getElem_set_ne (Nat.succ_pos 7) (Nat.succ_lt_succ hi) (Nat.succ_ne_zero i).symm

/-! ## FR_CIPHER (44_frame.md R130 to R132) -/

/-- The datapath of FR_CIPHER: the block cipher on the payload, at the frame's own index (R130). -/
def State.cipherPayload (s : State) : Attempt (List Byte) := s.bcApply (ftGetIndex s.tagw) s.payloadBytes

/-- An FR_CIPHER whose checks pass and whose datapath gives a block writes that block and keeps the tag word. -/
theorem exec_frCipher_of_ok {s : State} {out : List Byte} (hf : s.fault = 0#4)
    (hn : Needs.keyAndTransform.met s = true) (h : s.cipherPayload = .ok out) :
    exec .frCipher s = .next ((s.withFrame (frameOfBlock s.tagw out)).complete .noResult) := by
  refine exec_of_ok hf hn ?_
  rw [State.cipherPayload] at h
  rw [bodyOf, frCipherBody, h]
  rfl

/-- An FR_CIPHER that answers OK has passed the common checks, and the block it writes is the datapath's. -/
theorem exec_frCipher_eq_ok {s t : State} (h : exec .frCipher s = .next t)
    (hout : t.outputs = s.outputs ++ [⟨.ok, .noResult⟩]) :
    s.fault = 0#4 ∧ Needs.keyAndTransform.met s = true ∧ ∃ out, s.cipherPayload = .ok out ∧
      t = (s.withFrame (frameOfBlock s.tagw out)).complete .noResult := by
  rw [exec_eq_perform] at h
  rcases perform_eq_next h with ⟨hf, hn, u, r, hb, rfl⟩ | ⟨S, rfl, hS⟩
  · rcases frCipherBody_cases s with ⟨-, hb'⟩ | ⟨-, ⟨out, hdata, hb'⟩ | ⟨f, hb', -⟩⟩
    all_goals cases hb'.symm.trans hb
    exact ⟨hf, hn, out, hdata, rfl⟩
  · cases List.append_cancel_left hout
    rcases hS with ⟨-, hS⟩ | ⟨-, -, hS⟩ | ⟨-, -, hb⟩
    · cases hS
    · cases hS
    · rcases frCipherBody_cases s with ⟨-, hb'⟩ | ⟨-, ⟨out, -, hb'⟩ | ⟨f, hb', -⟩⟩
      all_goals cases hb'.symm.trans hb

theorem cipherPayload_length {s : State} {out : List Byte} (h : s.cipherPayload = .ok out) : out.length = 28 :=
  bcApply_length h

/-- A state that holds the ciphered frame, and the key and transform it was ciphered with, deciphers it: its index is
the one of the frame before, since the tag word is not ciphered (R131, R132). -/
theorem cipherPayload_involutive {s r : State} {out : List Byte} (h : s.cipherPayload = .ok out)
    (hfw : r.fw = frameOfBlock s.tagw out) (hk : r.sameKey s) (ht : r.sameTransform s) :
    r.cipherPayload = .ok s.payloadBytes := by
  calc r.cipherPayload = r.bcApply (ftGetIndex s.tagw) out := by
        rw [State.cipherPayload, tagw_of_fw_eq hfw, payloadBytes_of_fw_eq hfw (cipherPayload_length h)]
    _ = s.bcApply (ftGetIndex s.tagw) out := bcApply_congr hk ht _ _
    _ = .ok s.payloadBytes := bcApply_involutive h (payloadBytes_length s)

/-- Such a state's FR_CIPHER gives the frame before back. -/
theorem exec_frCipher_undoes {s r : State} {out : List Byte} (h : s.cipherPayload = .ok out)
    (hfw : r.fw = frameOfBlock s.tagw out) (hk : r.sameKey s) (ht : r.sameTransform s) (hf : r.fault = 0#4)
    (hn : Needs.keyAndTransform.met r = true) :
    exec .frCipher r = .next ((r.withFrame s.fw).complete .noResult) := by
  rw [exec_frCipher_of_ok hf hn (cipherPayload_involutive h hfw hk ht), tagw_of_fw_eq hfw,
    frameOfBlock_payloadBytes]

/-- The index of the frame is the low 31 bits of the tag word (30_encoding.md R61). -/
theorem ftGetIndex_eq_ofNat (t : Word) : ftGetIndex t = BitVec.ofNat 32 (t.toNat % 2 ^ 31) := by
  rw [← toNat_ftGetIndex, BitVec.ofNat_toNat, BitVec.setWidth_eq]

/-- Byte `k` of key word `off + i` is what the datapath changes byte `k` of payload word `i` by (42_block_cipher.md
R103). -/
theorem cipherPayload_byte {s : State} {out : List Byte} (h : s.cipherPayload = .ok out) {i k : Nat} (hi : i < 7)
    (hk : k < 4) : readByte s.key (4 * (s.cipherOffset (ftGetIndex s.tagw) + i) + k) =
      .ok (s.fw[i + 1].extractLsb' (8 * k) 8 ^^^ (wordAt out i).extractLsb' (8 * k) 8) := by
  have hpayload := payloadBytes_length s
  have hout := cipherPayload_length h
  rw [← wordAt_payloadBytes s hi, wordAt_byte _ i k hk (by omega), wordAt_byte _ i k hk (by omega),
    ← bcApply_byte h hpayload (by omega) (by omega), Nat.mul_add, Nat.add_assoc]

/-- Settles O52: key material of 7 words lets the datapath complete, and the key byte read is the one
`cipherPayload_byte` gives. -/
theorem frCipherXorsThePayload : Obligations.FrCipherXorsThePayload := by
  intro s ⟨hf, hkv, hiv⟩ hready hlen
  have hwords : 7 ≤ s.totalWords 32 := by simp only [State.totalWords]; omega
  obtain ⟨out, hout⟩ := bcApply_of_ready hready hwords (ftGetIndex s.tagw) s.payloadBytes
  refine ⟨frameOfBlock s.tagw out, exec_frCipher_of_ok hf (Needs.met_keyAndTransform.2 ⟨hkv, hiv⟩) hout,
    frameOfBlock_zero _ _, fun i k hi hk => ?_⟩
  have hkey := cipherPayload_byte hout hi hk
  rw [ftGetIndex_eq_ofNat] at hkey
  refine ⟨_, hkey, ?_⟩
  simp only [Nat.add_comm 1 i, frameOfBlock_succ _ _ hi, xor_cancel_left]

/-- Settles O53: the second FR_CIPHER finds the key and the transform of the first. -/
theorem frCipherIsAnInvolution : Obligations.FrCipherIsAnInvolution := by
  intro s t h hout
  obtain ⟨hf, hn, out, hdata, rfl⟩ := exec_frCipher_eq_ok h hout
  exact exec_frCipher_undoes hdata rfl ⟨rfl, fun _ _ => rfl⟩ ⟨rfl, rfl⟩ hf hn

/-- Settles O54: the wire carries the sender's ciphered frame whole, so the receiver deciphers that frame. -/
theorem receiverRecoversTheSendersFrame : Obligations.ReceiverRecoversTheSendersFrame := by
  intro s s1 s2 r r1 wire ⟨hrf, hrkv, hriv⟩ hlen hmask hsel hkey hcipher hcipherOk hread hreadOk hload
  obtain ⟨hf, -, out, hdata, rfl⟩ := exec_frCipher_eq_ok hcipher hcipherOk
  obtain ⟨-, hwire⟩ := exec_frAsBytes_eq_next hread hreadOk hf
  cases (exec_frLoadBytes hrf wire).symm.trans hload
  have hfw : frameOfBytes wire.toList = frameOfBlock s.tagw out := by
    rw [hwire, frameOfBytes_frameBytes]
    rfl
  have hsame : r.sameKey s := ⟨hlen, fun a ha => hkey a (hlen ▸ ha)⟩
  exact exec_frCipher_undoes hdata hfw hsame ⟨hmask, hsel⟩ hrf (Needs.met_keyAndTransform.2 ⟨hrkv, hriv⟩)

/-- Settles O55: the datapath sees of the tag word its index alone. -/
theorem tagBitTakesNoPartInCiphering : Obligations.TagBitTakesNoPartInCiphering := by
  intro s t v hv h hout
  obtain ⟨hf, hn, out, hdata, rfl⟩ := exec_frCipher_eq_ok h hout
  have hindex : ftGetIndex v = ftGetIndex s.tagw := by
    rw [ftGetIndex_eq_ofNat, ftGetIndex_eq_ofNat, hv]
    rfl
  have htagw : (s.withFrame (s.fw.set 0 v)).tagw = v := Vector.getElem_set_self _
  have hdata' : (s.withFrame (s.fw.set 0 v)).cipherPayload = .ok out := by
    rw [State.cipherPayload, htagw, hindex, payloadBytes_set_zero, ← hdata]
    exact bcApply_congr ⟨rfl, fun _ _ => rfl⟩ ⟨rfl, rfl⟩ _ _
  have hexec := exec_frCipher_of_ok (s := s.withFrame (s.fw.set 0 v)) hf hn hdata'
  rw [htagw, ← frameOfBlock_set_zero s.tagw] at hexec
  exact hexec

/-! ## FR_NEW and the payload words (44_frame.md R125, R128, R129) -/

/-- Settles O46: a frame of eight zero words is the repeated word. -/
theorem frNewZeroesTheFrame : Obligations.FrNewZeroesTheFrame :=
  fun _ hf => exec_of_ok hf rfl rfl

/-- Settles O50: the pseudocode's two ends are the two ranges of `i`. -/
theorem frSetPayloadWritesOneWord : Obligations.FrSetPayloadWritesOneWord := by
  intro s i value hf
  rcases frSetPayloadBody_cases i value s with ⟨hi, hb⟩ | ⟨hi, hb⟩
  · exact ⟨fun _ => exec_of_ok hf rfl hb, fun h => absurd hi h.not_gt⟩
  · refine ⟨fun h => absurd h hi.not_gt, fun _ => ?_⟩
    rw [exec_of_raise (i := .frSetPayload i value) hf rfl hb, State.raise_of_not_fatal s rfl]

/-- Settles O51: the pseudocode's two ends are the two ranges of `i`. -/
theorem frGetPayloadReadsOneWord : Obligations.FrGetPayloadReadsOneWord := by
  intro s i hf
  rcases frGetPayloadBody_cases i s with ⟨hi, hb⟩ | ⟨hi, hb⟩
  · exact ⟨fun _ => exec_of_ok hf rfl hb, fun h => absurd hi h.not_gt⟩
  · refine ⟨fun h => absurd h hi.not_gt, fun _ => ?_⟩
    rw [exec_of_raise (i := .frGetPayload i) hf rfl hb, State.raise_of_not_fatal s rfl]

end Sys2Proof.Machine
end

section
/-! Statuses and faults: what a failure leaves, which operations answer which status, and the per-message operations
of a configured CORE, which cannot fail (60_exceptions.md R140 to R155, R161). -/

namespace Sys2Proof.Machine

/-! ## Idling (60_exceptions.md R161) -/

theorem State.arrival_of_no_inputs {s : State} (h : s.inputs = []) : s.arrival = .idle := by
  simp only [State.arrival, h]

theorem step_of_arrival_idle {s : State} (h : s.arrival = .idle) : step s = .next s := by
  simp only [step, h]

/-- Settles O14: nothing issued arrives as nothing. -/
theorem idleStepKeepsTheState : Obligations.IdleStepKeepsTheState :=
  fun _ h => step_of_arrival_idle (State.arrival_of_no_inputs h)

/-! ## The common checks and illegal commands (60_exceptions.md R146, R147, R149, R152) -/

theorem perform_of_unmet {needs : Needs} {body : State → Attempt (State × Result)} {s : State} (hf : s.fault = 0#4)
    (hn : needs.met s = false) : perform needs body s = .next (s.raise .notConfigured) := by
  rw [perform, if_neg (not_not.2 hf), if_pos hn]

/-- Faulted is answered to every operation while a fault is latched (R146). -/
theorem exec_of_faulted (i : Instr) {s : State} (hf : s.fault ≠ 0#4) :
    exec i s = .next (s.answered .faulted .noResult) := by
  rw [exec_eq_perform, perform_of_faulted hf, State.raise_of_not_fatal s rfl]

/-- NotConfigured is answered where a valid flag the operation needs is 0 (R147). -/
theorem exec_of_unmet {i : Instr} {s : State} (hf : s.fault = 0#4) (hn : (needsOf i).met s = false) :
    exec i s = .next (s.answered .notConfigured .noResult) := by
  rw [exec_eq_perform, perform_of_unmet hf hn, State.raise_of_not_fatal s rfl]

theorem Needs.met_keyAndTransform_eq_false {s : State} :
    Needs.keyAndTransform.met s = false ↔ s.ksValid = false ∨ s.itValid = false := Bool.and_eq_false_iff

theorem State.rejectIllegal_of_faulted {s : State} (h : s.fault ≠ 0#4) :
    s.rejectIllegal = s.answered .faulted .noResult := by
  rw [State.rejectIllegal, if_pos h, State.raise_of_not_fatal s rfl]

theorem step_of_decode_error {s : State} {c : Command} {rest : List Input} {e : DecodeError}
    (h : s.inputs = .command c :: rest) (hd : decode c = .error e) :
    step s = .next (State.rejectIllegal { s with inputs := rest }) := by
  rw [step_of_arrival_illegal (State.arrival_of_decode_error h hd), State.popInput_eq_of_inputs h]

/-- Settles O7: with no fault latched the rejection is an answer alone. -/
theorem illegalCommandDoesNothing : Obligations.IllegalCommandDoesNothing := by
  intro s c rest e hin hd hf
  rw [step_of_decode_error hin hd, State.rejectIllegal_of_no_fault (by exact hf)]

/-- Settles O9: the latch is looked at first, by the answer to an illegal command and by the common checks alike. -/
theorem latchedFaultAnswersEveryCommand : Obligations.LatchedFaultAnswersEveryCommand := by
  intro s c rest hin hf
  cases hd : decode c with
  | error e => rw [step_of_decode_error hin hd, State.rejectIllegal_of_faulted (by exact hf)]
  | ok i => rw [stepRunsTheDecodedCommand s c rest i hin hd, exec_of_faulted i (by exact hf)]

/-- Settles O10: KS_SUBKEY needs the one flag, the other three both. -/
theorem unconfiguredOperationsAreRefused : Obligations.UnconfiguredOperationsAreRefused := by
  refine ⟨fun s w off len hf hk => exec_of_unmet hf hk, fun s index len block hf hflags => ?_⟩
  have hn : Needs.keyAndTransform.met s = false := Needs.met_keyAndTransform_eq_false.2 hflags
  exact ⟨exec_of_unmet hf hn, exec_of_unmet hf hn, exec_of_unmet hf hn⟩

/-! ## NoValidOffset (60_exceptions.md R144) -/

theorem frCipherBody_of_short {s : State} (h : s.totalWords 32 < 7) :
    bodyOf .frCipher s = .error (.status .noValidOffset) := by
  rcases frCipherBody_cases s with ⟨-, hb⟩ | ⟨hlong, -⟩
  · exact hb
  · exact absurd h hlong.not_gt

theorem bcApplyBody_of_short {s : State} (h : s.totalWords 32 < 7) (index : Word) (block : Vector Byte 28) :
    bodyOf (.bcApply index block) s = .error (.status .noValidOffset) := by
  rcases bcApplyBody_cases index block s with ⟨-, hb⟩ | ⟨hlong, -⟩
  · exact hb
  · exact absurd h hlong.not_gt

theorem itOffsetBody_of_short {s : State} {len : Word} (h : s.totalWords 32 < len.toNat) (index : Word) :
    bodyOf (.itOffset index len) s = .error (.status .noValidOffset) := by
  rcases itOffsetBody_cases index len s with ⟨-, hb⟩ | ⟨hlong, -⟩
  · exact hb
  · exact absurd h hlong.not_gt

/-- Settles O37: the common checks pass, each pseudocode finds no window of the asked length in the key, and
NoValidOffset is fatal. -/
theorem shortKeysHaveNoValidOffset : Obligations.ShortKeysHaveNoValidOffset := by
  intro s ⟨hf, hk, ht⟩
  have hn : Needs.keyAndTransform.met s = true := Needs.met_keyAndTransform.2 ⟨hk, ht⟩
  refine ⟨fun hshort => ⟨?frCipher, fun index block => ?bcApply⟩, fun index len hshort => ?itOffset⟩
  case frCipher => exact exec_of_fatal hf hn rfl (frCipherBody_of_short hshort)
  case bcApply => exact exec_of_fatal hf hn rfl (bcApplyBody_of_short hshort index block)
  case itOffset => exact exec_of_fatal hf hn rfl (itOffsetBody_of_short hshort index)

/-! ## Fault entry (60_exceptions.md R150, R154) -/

/-- No pseudocode touches the latch or the host's side of the port; the answer is given by its completion alone. -/
structure State.KeepsPort (s t : State) : Prop where
  fault : t.fault = s.fault
  inputs : t.inputs = s.inputs
  outputs : t.outputs = s.outputs

theorem State.Completes.keepsPort {s t : State} (h : s.Completes t) : s.KeepsPort t := by
  cases h with
  | key | transform | frame => exact ⟨rfl, rfl, rfl⟩

/-- Everything an operation that gives a next state has answered: OK on a completion, or a status raised by the common
checks or by the pseudocode they let run. -/
theorem exec_answer_cases {i : Instr} {s t : State} (h : exec i s = .next t) :
    (∃ u r, s.KeepsPort u ∧ t = u.complete r) ∨
    (∃ S : Status, t = s.raise S ∧ (S = .faulted ∨ S = .notConfigured ∧ (needsOf i).met s = false ∨
      s.fault = 0#4 ∧ bodyOf i s = .error (.status S))) := by
  rw [exec_eq_perform] at h
  rcases perform_eq_next h with ⟨-, hn, u, r, hb, ht⟩ | ⟨S, ht, ⟨-, hS⟩ | ⟨-, hn, hS⟩ | ⟨hf, -, hb⟩⟩
  · have hu : s.Completes u := State.mayEnd_of_eq hb.symm (bodyOf_mayEnd hn)
    exact .inl ⟨u, r, hu.keepsPort, ht⟩
  · exact .inr ⟨S, ht, .inl hS⟩
  · exact .inr ⟨S, ht, .inr (.inl ⟨hS, hn⟩)⟩
  · exact .inr ⟨S, ht, .inr (.inr ⟨hf, hb⟩)⟩

/-- The fatal statuses are those with the codes 1 to 5 (R140). -/
theorem Status.fatal_iff_code (S : Status) : S.fatal = true ↔ 1 ≤ S.code.toNat ∧ S.code.toNat ≤ 5 := by
  cases S <;> decide

/-- What a status that is fatal only without a latched fault leaves in the latch. -/
theorem latchFault_eq_ite {fault : BitVec 4} {S : Status} (h : S.fatal = true → fault = 0#4) :
    latchFault fault S = if 1 ≤ S.code.toNat ∧ S.code.toNat ≤ 5 then S.code else fault :=
  if_congr ((and_iff_left_of_imp h).trans S.fatal_iff_code) rfl rfl

/-- Settles O21: a completion answers OK and keeps the latch; a status is raised on the state before, and a fatal one
comes from the pseudocode, which runs only while no fault is latched. -/
theorem everyFailureIsPrecise : Obligations.EveryFailureIsPrecise := by
  intro i s t h
  rcases exec_answer_cases h with ⟨u, r, ⟨hfault, hin, hout⟩, rfl⟩ | ⟨S, rfl, hS⟩
  · exact ⟨⟨.ok, r⟩, by rw [State.complete_outputs, hout], hin, fun _ => hfault, fun hne => absurd rfl hne⟩
  · have hfatal : S.fatal = true → s.fault = 0#4 := by
      rcases hS with rfl | ⟨rfl, -⟩ | ⟨hf, -⟩
      · exact nofun
      · exact nofun
      · exact fun _ => hf
    refine ⟨⟨S, .noResult⟩, rfl, rfl, fun hok => ?ok, fun _ => ⟨rfl, ?unlatched, ?onlyFault⟩⟩
    case ok => exact if_neg fun ⟨hS, _⟩ => by cases hok; cases hS
    case unlatched => exact fun hcode => hfatal (S.fatal_iff_code.2 hcode)
    case onlyFault => rw [State.raise, latchFault_eq_ite hfatal]

/-! ## Which operation answers which status (60_exceptions.md R153) -/

/-- Every operation may answer OK and Faulted. -/
theorem allowedStatuses_eq_cons (i : Instr) : ∃ own, allowedStatuses i = .ok :: .faulted :: own := by
  cases i <;> exact ⟨_, rfl⟩

theorem ok_mem_allowedStatuses (i : Instr) : .ok ∈ allowedStatuses i := by
  obtain ⟨own, h⟩ := allowedStatuses_eq_cons i
  simp [h]

theorem faulted_mem_allowedStatuses (i : Instr) : .faulted ∈ allowedStatuses i := by
  obtain ⟨own, h⟩ := allowedStatuses_eq_cons i
  simp [h]

/-- NotConfigured comes only from the operations that need a valid flag (R147). -/
theorem notConfigured_mem_allowedStatuses {i : Instr} {s : State} (hn : (needsOf i).met s = false) :
    .notConfigured ∈ allowedStatuses i := by
  cases i with
  | ksSubkey | itOffset | bcApply | frCipher => simp [allowedStatuses]
  | _ => cases hn

/-- The statuses a pseudocode raises itself are those of its own rule. -/
theorem bodyOf_status_mem_allowedStatuses {i : Instr} {s : State} {S : Status}
    (h : bodyOf i s = .error (.status S)) : S ∈ allowedStatuses i := by
  cases i with
  | ksLoad kdata =>
    rcases ksLoadBody_cases kdata s with ⟨-, hb⟩ | ⟨-, -, hb⟩ | ⟨-, -, -, hb⟩
    all_goals cases hb.symm.trans h
    all_goals simp [allowedStatuses]
  | ksSubkey w off len =>
    rcases ksSubkeyBody_cases w off len s with ⟨-, hb⟩ | ⟨-, -, hb⟩ | ⟨-, -, -, hb⟩ |
      ⟨-, -, ⟨ws, -, hb⟩ | ⟨f, -, hb, -⟩⟩
    all_goals cases hb.symm.trans h
    all_goals simp [allowedStatuses]
  | itConfig mask sel =>
    rcases itConfigBody_cases mask sel s with ⟨-, hb⟩ | ⟨-, hb⟩ | ⟨-, hb⟩
    all_goals cases hb.symm.trans h
    simp [allowedStatuses]
  | itOffset index len =>
    rcases itOffsetBody_cases index len s with ⟨-, hb⟩ | ⟨-, hb⟩
    all_goals cases hb.symm.trans h
    simp [allowedStatuses]
  | bcApply index block =>
    rcases bcApplyBody_cases index block s with ⟨-, hb⟩ | ⟨-, ⟨out, -, hb⟩ | ⟨f, hb, -⟩⟩
    all_goals cases hb.symm.trans h
    simp [allowedStatuses]
  | frCipher =>
    rcases frCipherBody_cases s with ⟨-, hb⟩ | ⟨-, ⟨out, -, hb⟩ | ⟨f, hb, -⟩⟩
    all_goals cases hb.symm.trans h
    simp [allowedStatuses]
  | frSetPayload n value =>
    rcases frSetPayloadBody_cases n value s with ⟨_, hb⟩ | ⟨-, hb⟩
    all_goals cases hb.symm.trans h
    simp [allowedStatuses]
  | frGetPayload n =>
    rcases frGetPayloadBody_cases n s with ⟨_, hb⟩ | ⟨-, hb⟩
    all_goals cases hb.symm.trans h
    simp [allowedStatuses]
  | ftNew | ftGetIndex | ftSetIndex | ftGetTag | ftSetTag | ftTagBits | frNew | frAsBytes | frLoadBytes => cases h

/-- Settles O22: a status is OK, or of the common checks, or of the operation's own pseudocode. -/
theorem statusesComeOnlyFromTheirOperations : Obligations.StatusesComeOnlyFromTheirOperations := by
  intro i s t h
  rcases exec_answer_cases h with ⟨u, r, hport, rfl⟩ | ⟨S, rfl, hS⟩
  · exact ⟨⟨.ok, r⟩, by rw [State.complete_outputs, hport.outputs], ok_mem_allowedStatuses i⟩
  · refine ⟨⟨S, .noResult⟩, rfl, ?_⟩
    rcases hS with rfl | ⟨rfl, hn⟩ | ⟨-, hb⟩
    · exact faulted_mem_allowedStatuses i
    · exact notConfigured_mem_allowedStatuses hn
    · exact bodyOf_status_mem_allowedStatuses hb

/-! ## Per-message operations of a configured CORE (60_exceptions.md R155) -/

theorem Needs.met_of_valid {s : State} (hk : s.ksValid = true) (ht : s.itValid = true) (needs : Needs) :
    needs.met s = true := by
  cases needs with
  | nothing => rfl
  | key => exact Needs.met_key.2 hk
  | keyAndTransform => exact Needs.met_keyAndTransform.2 ⟨hk, ht⟩

theorem frCipherBody_of_ok {s : State} {out : List Byte} (h : s.cipherPayload = .ok out) :
    bodyOf .frCipher s = .ok (s.payloadWriteAll fun i => wordAt out i, .noResult) := by
  rw [State.cipherPayload] at h
  rw [bodyOf, frCipherBody, h]
  rfl

/-- With usable key material of 7 words the pseudocode of every per-message operation completes. -/
theorem bodyOf_completes_of_perMessage {i : Instr} {s : State} (hs : s.keyReady) (hwords : 7 ≤ s.totalWords 32)
    (hi : perMessage i = true) : ∃ u r, bodyOf i s = .ok (u, r) := by
  cases i with
  | bcApply index block =>
    obtain ⟨out, hout⟩ := bcApply_of_ready hs hwords index block.toList
    exact ⟨_, _, bcApplyBody_of_ok hout⟩
  | frCipher =>
    obtain ⟨out, hout⟩ := bcApply_of_ready hs hwords (ftGetIndex s.tagw) s.payloadBytes
    exact ⟨_, _, frCipherBody_of_ok hout⟩
  | frSetPayload n value =>
    rcases frSetPayloadBody_cases n value s with ⟨_, hb⟩ | ⟨hn, -⟩
    · exact ⟨_, _, hb⟩
    · exact absurd (of_decide_eq_true hi) hn.not_gt
  | frGetPayload n =>
    rcases frGetPayloadBody_cases n s with ⟨_, hb⟩ | ⟨hn, -⟩
    · exact ⟨_, _, hb⟩
    · exact absurd (of_decide_eq_true hi) hn.not_gt
  | ftNew | ftGetIndex | ftSetIndex | ftGetTag | ftSetTag | ftTagBits | frNew | frAsBytes | frLoadBytes =>
    exact ⟨_, _, rfl⟩
  | ksLoad | ksSubkey | itConfig | itOffset => cases hi

/-- A configured CORE stays configured as long as no operation latches a fault. -/
theorem ready_exec {i : Instr} {s t : State} (hs : s.ready) (h : exec i s = .next t) (hf : t.fault = 0#4) :
    t.ready := by
  obtain ⟨hinv, -, hk, ht, hlen⟩ := hs
  have hkeeps := exec_keepsFlagsAndFault h
  refine ⟨inv_exec hinv h, hf, hkeeps.ksValid hk, hkeeps.itValid ht, ?_⟩
  rcases exec_keepsKey h with hkey | ⟨hunloaded, -⟩
  · rwa [hkey.keyLen]
  · cases hk.symm.trans hunloaded

/-- Settles O25: the common checks pass, the pseudocode completes, and its answer OK leaves the latch at 0. -/
theorem perMessageOperationsCannotFail : Obligations.PerMessageOperationsCannotFail := by
  intro i s hs hi
  have ⟨⟨_, hready, _, _⟩, hf, hk, ht, hlen⟩ := hs
  have hwords : 7 ≤ s.totalWords 32 := (Nat.le_div_iff_mul_le (by decide)).2 hlen
  have hn := Needs.met_of_valid hk ht (needsOf i)
  obtain ⟨u, r, hb⟩ := bodyOf_completes_of_perMessage (hready hk) hwords hi
  have hu : s.Completes u := State.mayEnd_of_eq hb.symm (bodyOf_mayEnd hn)
  have hport := hu.keepsPort
  have hexec := exec_of_ok hf hn hb
  exact ⟨u.complete r, r, hexec, by rw [State.complete_outputs, hport.outputs],
    ready_exec hs hexec (hport.fault.trans hf)⟩

/-! ## Lists of messages (70_reset_and_hazards.md R177) -/

theorem wellFormed_of_perMessage {i : Instr} (h : perMessage i = true) : i.wellFormed = true := by
  cases i with
  | ksLoad => cases h
  | _ => rfl

theorem step_of_encode {s : State} {i : Instr} {rest : List Input} (h : s.inputs = .command (encode i) :: rest)
    (hw : i.wellFormed = true) : step s = exec i { s with inputs := rest } :=
  stepRunsTheDecodedCommand s (encode i) rest i h (decodeOfEncodeIsTheInstruction i hw)

theorem core_run_succ_of_step {s t : State} (h : step s = .next t) (k : Nat) : core.run (k + 1) s = core.run k t := by
  have hcore : core.step s = .next t := h
  simp only [Host.Core.run, hcore]

/-- One message of a configured CORE: its command is taken off the queue and answered OK. -/
theorem step_perMessage {s : State} {i : Instr} {rest : List Input} (hs : s.ready)
    (hin : s.inputs = .command (encode i) :: rest) (hi : perMessage i = true) :
    ∃ t r, step s = .next t ∧ t.inputs = rest ∧ t.outputs = s.outputs ++ [⟨.ok, r⟩] ∧ t.ready := by
  obtain ⟨t, r, hexec, hout, ht⟩ := perMessageOperationsCannotFail i { s with inputs := rest } hs hi
  obtain ⟨-, -, hrest, -⟩ := everyFailureIsPrecise i _ t hexec
  exact ⟨t, r, (step_of_encode hin (wellFormed_of_perMessage hi)).trans hexec, hrest, hout, ht⟩

/-- Settles O26, by induction on the list of messages: CORE is configured again after each one. -/
theorem configuredCoreAnswersEveryMessageList : Obligations.ConfiguredCoreAnswersEveryMessageList := by
  intro is
  induction is with
  | nil => exact fun s hs hin _ => ⟨s, [], rfl, (List.append_nil _).symm, rfl, nofun, hin, hs⟩
  | cons i is ih =>
    intro s hs hin hall
    obtain ⟨hi, his⟩ := List.forall_mem_cons.1 hall
    obtain ⟨s₁, r, hstep, hin₁, hout₁, hs₁⟩ := step_perMessage hs hin hi
    obtain ⟨t, rs, hrun, hout, hcount, hok, hend, ht⟩ := ih s₁ hs₁ hin₁ his
    refine ⟨t, ⟨.ok, r⟩ :: rs, ?run, ?answers, ?count, List.forall_mem_cons.2 ⟨rfl, hok⟩, hend, ht⟩
    case run => rw [List.length_cons, core_run_succ_of_step hstep, hrun]
    case answers => rw [hout, hout₁, List.append_assoc, List.singleton_append]
    case count => rw [List.length_cons, List.length_cons, hcount]

end Sys2Proof.Machine
end

section
/-! Reset as an input, and the absence of stops: in a state that meets the invariant no step ends in a fault or a refusal
(70_reset_and_hazards.md R165, R176; 20_memory.md R46). -/

namespace Sys2Proof.Machine

/-! ## Reset (70_reset_and_hazards.md R165) -/

theorem State.arrival_of_reset {s : State} {rest : List Input} (h : s.inputs = .reset :: rest) : s.arrival = .reset := by
  simp only [State.arrival, h]

theorem step_of_arrival_reset {s : State} (h : s.arrival = .reset) : step s = .next s.popInput.applyReset := by
  simp only [step, h]

/-- Settles O11: CORE's own items are those of the reset state, and the host's side of the port is kept. -/
theorem resetInputGivesResetValues : Obligations.ResetInputGivesResetValues := by
  intro s rest hin
  obtain ⟨hframe, hks, hit, hhash, hfault, hkey, -⟩ := resetStateHoldsTheResetValues
  have hrest : s.popInput.applyReset.inputs = rest := congrArg List.tail hin
  exact ⟨_, step_of_arrival_reset (State.arrival_of_reset hin), hframe, hks, hit, hhash, hfault, hkey, rfl, rfl, hrest,
    rfl⟩

/-! ## No step stops (70_reset_and_hazards.md R176, 20_memory.md R46) -/

theorem bodyOf_ne_fault_of_perMessage {i : Instr} {s : State} (hs : s.keyReady) (hwords : 7 ≤ s.totalWords 32)
    (hi : perMessage i = true) (f : Fault) : bodyOf i s ≠ .error (.fault f) := by
  obtain ⟨u, r, hb⟩ := bodyOf_completes_of_perMessage hs hwords hi
  rw [hb]
  exact nofun

/-- Only KS_SUBKEY, BC_APPLY and FR_CIPHER read key memory, each behind KS_VALID, so what they read is usable key
material, and each reads only where its own checks have found the window inside it. -/
theorem bodyOf_ne_fault {i : Instr} {s : State} (hs : s.ksValid = true → s.keyReady) (hn : (needsOf i).met s = true)
    (f : Fault) : bodyOf i s ≠ .error (.fault f) := by
  intro h
  cases i with
  | ksSubkey w off len =>
    rcases ksSubkeyBody_cases w off len s with ⟨-, hb⟩ | ⟨-, -, hb⟩ | ⟨-, -, -, hb⟩ |
      ⟨-, hwindow, ⟨ws, -, hb⟩ | ⟨g, hread, -⟩⟩
    · cases hb.symm.trans h
    · cases hb.symm.trans h
    · cases hb.symm.trans h
    · cases hb.symm.trans h
    · obtain ⟨ws, hws⟩ := subkey_of_ready (hs (Needs.met_key.1 hn)) hwindow
      cases hws.symm.trans hread
  | bcApply index block =>
    obtain ⟨hk, -⟩ := Needs.met_keyAndTransform.1 hn
    rcases bcApplyBody_cases index block s with ⟨-, hb⟩ | ⟨hwords, -⟩
    · cases hb.symm.trans h
    · exact absurd h (bodyOf_ne_fault_of_perMessage (hs hk) hwords rfl f)
  | frCipher =>
    obtain ⟨hk, -⟩ := Needs.met_keyAndTransform.1 hn
    rcases frCipherBody_cases s with ⟨-, hb⟩ | ⟨hwords, -⟩
    · cases hb.symm.trans h
    · exact absurd h (bodyOf_ne_fault_of_perMessage (hs hk) hwords rfl f)
  | ksLoad kdata =>
    rcases ksLoadBody_cases kdata s with ⟨-, hb⟩ | ⟨-, -, hb⟩ | ⟨-, -, -, hb⟩
    all_goals cases hb.symm.trans h
  | itConfig mask sel =>
    rcases itConfigBody_cases mask sel s with ⟨-, hb⟩ | ⟨-, hb⟩ | ⟨-, hb⟩
    all_goals cases hb.symm.trans h
  | itOffset index len =>
    rcases itOffsetBody_cases index len s with ⟨-, hb⟩ | ⟨-, hb⟩
    all_goals cases hb.symm.trans h
  | frSetPayload n value =>
    rcases frSetPayloadBody_cases n value s with ⟨_, hb⟩ | ⟨-, hb⟩
    all_goals cases hb.symm.trans h
  | frGetPayload n =>
    rcases frGetPayloadBody_cases n s with ⟨_, hb⟩ | ⟨-, hb⟩
    all_goals cases hb.symm.trans h
  | ftNew | ftGetIndex | ftSetIndex | ftGetTag | ftSetTag | ftTagBits | frNew | frAsBytes | frLoadBytes => cases h

/-- An operation gives a next state: a fault could only come from its pseudocode, and nothing refuses. -/
theorem exec_gives_next (i : Instr) {s : State} (hs : s.ksValid = true → s.keyReady) : ∃ t, exec i s = .next t := by
  cases h : exec i s with
  | next t => exact ⟨t, rfl⟩
  | fault f =>
    rw [exec_eq_perform] at h
    obtain ⟨-, hn, hb⟩ := perform_eq_fault h
    exact absurd hb (bodyOf_ne_fault hs hn f)
  | refused q =>
    rw [exec_eq_perform] at h
    exact absurd h (perform_ne_refused _ _ s q)

/-- Settles O17: idling, a reset and an illegal command give a next state from anywhere; an operation does because the
invariant keeps the key material usable while KS_VALID is 1. -/
theorem stepNeverStops : Obligations.StepNeverStops := by
  intro s ⟨_, hready, _, _⟩
  rcases step_cases s with ⟨-, hstep⟩ | ⟨_, -, hstep⟩ | ⟨_, _, _, -, -, hstep⟩ | ⟨_, _, i, -, -, hstep⟩
  · exact ⟨_, hstep⟩
  · exact ⟨_, hstep⟩
  · exact ⟨_, hstep⟩
  · obtain ⟨t, ht⟩ := exec_gives_next i (s := s.popInput) hready
    exact ⟨t, hstep.trans ht⟩

end Sys2Proof.Machine
end
